-- ==== Sys2Proof/Word.lean ====
section
/-! DEFINITION. The word of the machine and the byte of its console and image streams (00_scope.md R5, glossary). -/

namespace Sys2Proof

/-- A 16-bit value: a general register, PC, a memory cell, an address, an instruction (R5 WORD, ADDR).
`+` on words is addition modulo 2^16 (R9). -/
abbrev Word := BitVec 16

/-- An 8-bit value: what `WriteChar` takes (R13) and what an image stream is made of (R175). -/
abbrev Byte := BitVec 8

end Sys2Proof
end

