-- ==== Sys2Proof/Config.lean ====
section
/-! DEFINITION. The parameters of the machine: the fixed ones of 00_scope.md R5, the ones of R6 at the values the
spec uses everywhere, and the two OPEN texts, which have no value here. -/

namespace Sys2Proof

/-- The 16 opcode names (30_encoding.md R72). JSR and JSRR share one. -/
inductive Opcode
  | br | add | ld | st | jsr | and | ldr | str | rti | not | ldi | sti | jmp | res | lea | trap
deriving DecidableEq, Repr

namespace Config

/-- MEM_CELLS (R5; `MEMORY_MAX` of R179, D20). -/
def memCells : Nat := 65536

/-- PC_START (R5, R211). -/
def pcStart : Word := 0x3000

/-- What every cell holds after reset (R31, D26), hence what a cell nothing has written reads as (log 2). -/
def resetCell : Word := 0x0000

/-- The keyboard status address (R5, R46). -/
def kbsr : Word := 0xFE00

/-- The keyboard data address (R5, R47). -/
def kbdr : Word := 0xFE02

/-- What a poll that finds a key writes to KBSR: READY set, bits 14:0 zero (R42, R46, D8; log 16). -/
def kbsrReady : Word := 0x8000

/-- What a poll that finds no key writes to KBSR (R42). -/
def kbsrIdle : Word := 0x0000

/-- The trap vectors (R5, R151). -/
def trapGetc : Byte := 0x20
/-- See `trapGetc`. -/
def trapOut : Byte := 0x21
/-- See `trapGetc`. -/
def trapPuts : Byte := 0x22
/-- See `trapGetc`. -/
def trapIn : Byte := 0x23
/-- See `trapGetc`. -/
def trapPutsp : Byte := 0x24
/-- See `trapGetc`. -/
def trapHalt : Byte := 0x25

/-- OPCODE_MAP (R72, D3). ADD's number is the document's; the other fifteen are PRESUMED (log 11). -/
def opcodeMap : Opcode → BitVec 4
  | .br => 0b0000
  | .add => 0b0001
  | .ld => 0b0010
  | .st => 0b0011
  | .jsr => 0b0100
  | .and => 0b0101
  | .ldr => 0b0110
  | .str => 0b0111
  | .rti => 0b1000
  | .not => 0b1001
  | .ldi => 0b1010
  | .sti => 0b1011
  | .jmp => 0b1100
  | .res => 0b1101
  | .lea => 0b1110
  | .trap => 0b1111

/-! FIELD_LAYOUT (R73 to R78, D4; log 12): the lowest bit of each field; the widths are the types of the fields. -/

/-- `instr[15:12]` (R71). -/
@[simp] abbrev opcodeLo : Nat := 12
/-- DR, and SR of ST, STI, STR: `instr[11:9]` (R73 to R76). -/
@[simp] abbrev drLo : Nat := 9
/-- cond3: `instr[11:9]` (R75). -/
@[simp] abbrev cond3Lo : Nat := 9
/-- SR1 of ADD and AND, SR of NOT: `instr[8:6]` (R73, R74). -/
@[simp] abbrev sr1Lo : Nat := 6
/-- BaseR: `instr[8:6]` (R76, R77). -/
@[simp] abbrev baseLo : Nat := 6
/-- SR2: `instr[2:0]` (R74). -/
@[simp] abbrev sr2Lo : Nat := 0
/-- The bit that selects the immediate form of ADD and AND: `instr[5]` (R73, R74). -/
@[simp] abbrev immFlagBit : Nat := 5
/-- The bit that selects JSR over JSRR: `instr[11]` (R77). -/
@[simp] abbrev longFlagBit : Nat := 11
/-- imm5, offset6, PCoffset9, PCoffset11 and trapvect8 all end at bit 0 (R73, R75 to R78). -/
@[simp] abbrev immLo : Nat := 0

/-! COND_CODE (R24, D5; log 13): the one-hot code of each flag, which is also the bit of cond3 that tests it (R75). -/

/-- The code of POSITIVE; cond3 bit p. -/
def condPositive : BitVec 3 := 0b001
/-- The code of ZERO; cond3 bit z. -/
def condZero : BitVec 3 := 0b010
/-- The code of NEGATIVE; cond3 bit n. -/
def condNegative : BitVec 3 := 0b100

/-- LD_ACCUMULATE (R6, D17, U3): the one legal value is true; LD adds to DR (R130; log 21). -/
def ldAccumulate : Bool := true

/-- IN_PROMPT, OPEN with no default (R6, R155, D14): some finite byte string, the same at every IN (log 10). -/
opaque inPrompt : List Byte

/-- HALT_NOTICE, OPEN with no default (R6, R157, D14): some finite byte string (log 10). -/
opaque haltNotice : List Byte

end Config

end Sys2Proof
end

