-- ==== Sys2Proof/Syntax.lean ====
section
/-! DEFINITION. The instructions: one constructor per row of spec/opcode_table.json, every operand a value the encoding
can hold; and the assembly notation of 30_encoding.md R84, whose operands are plain numbers. -/

namespace Sys2Proof

/-- A general register, R0 to R7 (10_state.md R20). No instruction field can name PC or COND. -/
inductive Reg
  | r0 | r1 | r2 | r3 | r4 | r5 | r6 | r7
deriving DecidableEq, Repr

/-- An instruction. Immediates are the raw fields of the word (30_encoding.md R79), sign-extended by the meanings.
A term of this type is well formed by its type: there is nothing an encoding could not hold. -/
inductive Instr
  /-- BR (R120). -/
  | br (cond3 : BitVec 3) (pcOffset9 : BitVec 9)
  /-- ADD, register form (R110). -/
  | addReg (dr sr1 sr2 : Reg)
  /-- ADD, immediate form (R111). -/
  | addImm (dr sr1 : Reg) (imm5 : BitVec 5)
  /-- LD (R130). -/
  | ld (dr : Reg) (pcOffset9 : BitVec 9)
  /-- ST (R140). -/
  | st (sr : Reg) (pcOffset9 : BitVec 9)
  /-- JSRR (R123). -/
  | jsrr (base : Reg)
  /-- JSR (R122). -/
  | jsr (pcOffset11 : BitVec 11)
  /-- AND, register form (R112). -/
  | andReg (dr sr1 sr2 : Reg)
  /-- AND, immediate form (R113). -/
  | andImm (dr sr1 : Reg) (imm5 : BitVec 5)
  /-- LDR (R132). -/
  | ldr (dr base : Reg) (offset6 : BitVec 6)
  /-- STR (R142). -/
  | str (sr base : Reg) (offset6 : BitVec 6)
  /-- RTI (R170). -/
  | rti
  /-- NOT (R114). -/
  | not (dr sr : Reg)
  /-- LDI (R131). -/
  | ldi (dr : Reg) (pcOffset9 : BitVec 9)
  /-- STI (R141). -/
  | sti (sr : Reg) (pcOffset9 : BitVec 9)
  /-- JMP; RET is `jmp r7` (R121). -/
  | jmp (base : Reg)
  /-- RES (R171). -/
  | res
  /-- LEA (R133). -/
  | lea (dr : Reg) (pcOffset9 : BitVec 9)
  /-- TRAP (R150). -/
  | trap (trapvect8 : Byte)
deriving DecidableEq, Repr

/-- A line of the notation of R84: register numbers and vectors are naturals, immediates and offsets are the decimal
numbers as written. Whether it is a line the notation allows is `Asm.wellFormed`. -/
inductive Asm
  | addReg (dr sr1 sr2 : Nat)
  | addImm (dr sr1 : Nat) (imm : Int)
  | andReg (dr sr1 sr2 : Nat)
  | andImm (dr sr1 : Nat) (imm : Int)
  | not (dr sr : Nat)
  /-- BRn, BRz, BRp, BRnz, BRnp, BRzp, BRnzp with the named bits; `BR` alone is BRnzp. -/
  | br (n z p : Bool) (off : Int)
  | jmp (base : Nat)
  /-- The pseudo-instruction `JMP R7`. -/
  | ret
  | jsr (off : Int)
  | jsrr (base : Nat)
  | ld (dr : Nat) (off : Int)
  | ldi (dr : Nat) (off : Int)
  | lea (dr : Nat) (off : Int)
  | st (sr : Nat) (off : Int)
  | sti (sr : Nat) (off : Int)
  | ldr (dr base : Nat) (off : Int)
  | str (sr base : Nat) (off : Int)
  | trap (vect : Nat)
  /-- GETC, OUT, PUTS, IN, PUTSP, HALT: the pseudo-instructions for TRAP x20 to x25. -/
  | getc | out | puts | inChar | putsp | halt
  | rti
  | res
  /-- `.FILL v`: one cell holding the word v, not an instruction. -/
  | fill (v : Nat)
deriving DecidableEq, Repr

end Sys2Proof
end

