-- ==== Sys2Proof/WellFormed.lean ====
section
/-! DEFINITION. Which lines of the notation of 30_encoding.md R84 are well formed. An `Instr` needs no check: its type
holds exactly what the fields of the word can hold (R79). -/

namespace Sys2Proof

/-- Register names are R0 to R7 (R84). -/
def regOk (n : Nat) : Bool := decide (n < 8)

/-- The signed range of a field of `bits` bits (R79): −2^(bits−1) to 2^(bits−1) − 1. -/
def signedOk (bits : Nat) (v : Int) : Bool :=
  decide (-(2 : Int) ^ (bits - 1) ≤ v) && decide (v < (2 : Int) ^ (bits - 1))

/-- The lines R84 allows. A BR names at least one flag: the notation has no spelling for cond3 = 000 (log 29). -/
def Asm.wellFormed : Asm → Bool
  | .addReg d s t => regOk d && regOk s && regOk t
  | .addImm d s v => regOk d && regOk s && signedOk 5 v
  | .andReg d s t => regOk d && regOk s && regOk t
  | .andImm d s v => regOk d && regOk s && signedOk 5 v
  | .not d s => regOk d && regOk s
  | .br n z p off => (n || z || p) && signedOk 9 off
  | .jmp b => regOk b
  | .ret => true
  | .jsr off => signedOk 11 off
  | .jsrr b => regOk b
  | .ld d off => regOk d && signedOk 9 off
  | .ldi d off => regOk d && signedOk 9 off
  | .lea d off => regOk d && signedOk 9 off
  | .st s off => regOk s && signedOk 9 off
  | .sti s off => regOk s && signedOk 9 off
  | .ldr d b off => regOk d && regOk b && signedOk 6 off
  | .str s b off => regOk s && regOk b && signedOk 6 off
  | .trap v => decide (v < 256)
  | .getc => true
  | .out => true
  | .puts => true
  | .inChar => true
  | .putsp => true
  | .halt => true
  | .rti => true
  | .res => true
  | .fill v => decide (v < 65536)

end Sys2Proof
end

