-- ==== Sys2Proof/Decode.lean ====
section
/-! DEFINITION. The decoder, the encoder and the opcode table (30_encoding.md R70 to R83), and the assembler of the
notation (R84). Decoding is a pure function of the 16 bits of the word (R70) and refuses no word: every word is an
instruction (R82); only something longer than a word is refused, by `decodeTableWord`. -/

namespace Sys2Proof

/-- The number of a register: value i names Ri (R79). -/
def Reg.num : Reg → BitVec 3
  | .r0 => 0
  | .r1 => 1
  | .r2 => 2
  | .r3 => 3
  | .r4 => 4
  | .r5 => 5
  | .r6 => 6
  | .r7 => 7

/-- All registers. -/
def Reg.all : List Reg := [.r0, .r1, .r2, .r3, .r4, .r5, .r6, .r7]

/-- The register a 3-bit field names (R20). -/
def Reg.ofNum (b : BitVec 3) : Reg := (Reg.all.find? fun r => r.num == b).getD .r0

/-- All opcode names. -/
def Opcode.all : List Opcode :=
  [.br, .add, .ld, .st, .jsr, .and, .ldr, .str, .rti, .not, .ldi, .sti, .jmp, .res, .lea, .trap]

/-- The opcode that `instr[15:12]` names: OPCODE_MAP read backwards (R71, R72). -/
def Opcode.ofNum (b : BitVec 4) : Opcode := (Opcode.all.find? fun o => Config.opcodeMap o == b).getD .br

/-- The `len` bits of `w` from bit `lo` up. -/
def field (lo len : Nat) (w : Word) : BitVec len := w.extractLsb' lo len

/-- The register a field that starts at bit `lo` names. -/
def regField (lo : Nat) (w : Word) : Reg := Reg.ofNum (field lo 3 w)

/-- The instruction a word stands for (R71 to R79). Unused bits are not read (R80). -/
def decode (w : Word) : Instr :=
  match Opcode.ofNum (field Config.opcodeLo 4 w) with
  | .br => .br (field Config.cond3Lo 3 w) (field Config.immLo 9 w)
  | .add =>
    if w.getLsbD Config.immFlagBit then .addImm (regField Config.drLo w) (regField Config.sr1Lo w) (field Config.immLo 5 w)
    else .addReg (regField Config.drLo w) (regField Config.sr1Lo w) (regField Config.sr2Lo w)
  | .ld => .ld (regField Config.drLo w) (field Config.immLo 9 w)
  | .st => .st (regField Config.drLo w) (field Config.immLo 9 w)
  | .jsr =>
    if w.getLsbD Config.longFlagBit then .jsr (field Config.immLo 11 w)
    else .jsrr (regField Config.baseLo w)
  | .and =>
    if w.getLsbD Config.immFlagBit then .andImm (regField Config.drLo w) (regField Config.sr1Lo w) (field Config.immLo 5 w)
    else .andReg (regField Config.drLo w) (regField Config.sr1Lo w) (regField Config.sr2Lo w)
  | .ldr => .ldr (regField Config.drLo w) (regField Config.baseLo w) (field Config.immLo 6 w)
  | .str => .str (regField Config.drLo w) (regField Config.baseLo w) (field Config.immLo 6 w)
  | .rti => .rti
  | .not => .not (regField Config.drLo w) (regField Config.sr1Lo w)
  | .ldi => .ldi (regField Config.drLo w) (field Config.immLo 9 w)
  | .sti => .sti (regField Config.drLo w) (field Config.immLo 9 w)
  | .jmp => .jmp (regField Config.baseLo w)
  | .res => .res
  | .lea => .lea (regField Config.drLo w) (field Config.immLo 9 w)
  | .trap => .trap (field Config.immLo 8 w)

/-- The word with `v` in the bits from `lo` up and zero elsewhere. -/
def place {n : Nat} (lo : Nat) (v : BitVec n) : Word := v.setWidth 16 <<< lo

/-- The word with the register's number in the field that starts at bit `lo`. -/
def placeReg (lo : Nat) (r : Reg) : Word := place lo r.num

/-- The word with the opcode's number in `instr[15:12]`. -/
def placeOp (o : Opcode) : Word := place Config.opcodeLo (Config.opcodeMap o)

/-- The word of an instruction (R72 to R78), its unused bits filled as R83 says assemblers do (log 27). -/
def encode : Instr → Word
  | .br c off => placeOp .br ||| place Config.cond3Lo c ||| place Config.immLo off
  | .addReg d s t => placeOp .add ||| placeReg Config.drLo d ||| placeReg Config.sr1Lo s ||| placeReg Config.sr2Lo t
  | .addImm d s v =>
    placeOp .add ||| placeReg Config.drLo d ||| placeReg Config.sr1Lo s ||| place Config.immFlagBit 1#1 ||| place Config.immLo v
  | .ld d off => placeOp .ld ||| placeReg Config.drLo d ||| place Config.immLo off
  | .st s off => placeOp .st ||| placeReg Config.drLo s ||| place Config.immLo off
  | .jsrr b => placeOp .jsr ||| placeReg Config.baseLo b
  | .jsr off => placeOp .jsr ||| place Config.longFlagBit 1#1 ||| place Config.immLo off
  | .andReg d s t => placeOp .and ||| placeReg Config.drLo d ||| placeReg Config.sr1Lo s ||| placeReg Config.sr2Lo t
  | .andImm d s v =>
    placeOp .and ||| placeReg Config.drLo d ||| placeReg Config.sr1Lo s ||| place Config.immFlagBit 1#1 ||| place Config.immLo v
  | .ldr d b off => placeOp .ldr ||| placeReg Config.drLo d ||| placeReg Config.baseLo b ||| place Config.immLo off
  | .str s b off => placeOp .str ||| placeReg Config.drLo s ||| placeReg Config.baseLo b ||| place Config.immLo off
  | .rti => placeOp .rti
  | .not d s => placeOp .not ||| placeReg Config.drLo d ||| placeReg Config.sr1Lo s ||| place Config.immLo 0b111111#6
  | .ldi d off => placeOp .ldi ||| placeReg Config.drLo d ||| place Config.immLo off
  | .sti s off => placeOp .sti ||| placeReg Config.drLo s ||| place Config.immLo off
  | .jmp b => placeOp .jmp ||| placeReg Config.baseLo b
  | .res => placeOp .res
  | .lea d off => placeOp .lea ||| placeReg Config.drLo d ||| place Config.immLo off
  | .trap v => placeOp .trap ||| place Config.immLo v

/-- A row of spec/opcode_table.json: a word w is the row's instruction exactly when `w &&& mask = pattern`, and
`ignored` are the row's ignored bits (R80). -/
structure Row where
  mnemonic : String
  mask : Word
  pattern : Word
  ignored : Word
deriving DecidableEq, Repr

/-- The row an instruction belongs to. -/
def Instr.row : Instr → Row
  | .br _ _ => ⟨"BR", 0xF000, 0x0000, 0x0000⟩
  | .addReg _ _ _ => ⟨"ADD__register", 0xF020, 0x1000, 0x0018⟩
  | .addImm _ _ _ => ⟨"ADD__immediate", 0xF020, 0x1020, 0x0000⟩
  | .ld _ _ => ⟨"LD", 0xF000, 0x2000, 0x0000⟩
  | .st _ _ => ⟨"ST", 0xF000, 0x3000, 0x0000⟩
  | .jsrr _ => ⟨"JSRR", 0xF800, 0x4000, 0x063F⟩
  | .jsr _ => ⟨"JSR", 0xF800, 0x4800, 0x0000⟩
  | .andReg _ _ _ => ⟨"AND__register", 0xF020, 0x5000, 0x0018⟩
  | .andImm _ _ _ => ⟨"AND__immediate", 0xF020, 0x5020, 0x0000⟩
  | .ldr _ _ _ => ⟨"LDR", 0xF000, 0x6000, 0x0000⟩
  | .str _ _ _ => ⟨"STR", 0xF000, 0x7000, 0x0000⟩
  | .rti => ⟨"RTI", 0xF000, 0x8000, 0x0FFF⟩
  | .not _ _ => ⟨"NOT", 0xF000, 0x9000, 0x003F⟩
  | .ldi _ _ => ⟨"LDI", 0xF000, 0xA000, 0x0000⟩
  | .sti _ _ => ⟨"STI", 0xF000, 0xB000, 0x0000⟩
  | .jmp _ => ⟨"JMP", 0xF000, 0xC000, 0x0E3F⟩
  | .res => ⟨"RES", 0xF000, 0xD000, 0x0FFF⟩
  | .lea _ _ => ⟨"LEA", 0xF000, 0xE000, 0x0000⟩
  | .trap _ => ⟨"TRAP", 0xF000, 0xF000, 0x0F00⟩

/-- The 19 rows, in the table's order. -/
def opcodeTable : List Row :=
  [Instr.row (.br 0 0), Instr.row (.addReg .r0 .r0 .r0), Instr.row (.addImm .r0 .r0 0), Instr.row (.ld .r0 0),
   Instr.row (.st .r0 0), Instr.row (.jsrr .r0), Instr.row (.jsr 0), Instr.row (.andReg .r0 .r0 .r0),
   Instr.row (.andImm .r0 .r0 0), Instr.row (.ldr .r0 .r0 0)] ++
  [Instr.row (.str .r0 .r0 0), Instr.row .rti, Instr.row (.not .r0 .r0), Instr.row (.ldi .r0 0), Instr.row (.sti .r0 0),
   Instr.row (.jmp .r0), Instr.row .res, Instr.row (.lea .r0 0), Instr.row (.trap 0)]

/-- The word the table's numbering gives: `nbits` bits of `w`, every bit above them 0. -/
def tableWord (nbits w : Nat) : Word := BitVec.ofNat 16 (w % 2 ^ nbits)

/-- What the decoder reads from an instruction whose bits are `w`; none where no instruction is that long (R70). -/
def decodeTableWord (nbits w : Nat) : Option Instr :=
  if nbits ≤ 16 then some (decode (tableWord nbits w)) else none

/-- The register a register number of the notation names. -/
def Reg.named (n : Nat) : Reg := Reg.ofNum (BitVec.ofNat 3 n)

/-- The instruction a line of the notation stands for (R84); none for `.FILL`, which is no instruction. -/
def Asm.instr : Asm → Option Instr
  | .addReg d s t => some (.addReg (.named d) (.named s) (.named t))
  | .addImm d s v => some (.addImm (.named d) (.named s) (BitVec.ofInt 5 v))
  | .andReg d s t => some (.andReg (.named d) (.named s) (.named t))
  | .andImm d s v => some (.andImm (.named d) (.named s) (BitVec.ofInt 5 v))
  | .not d s => some (.not (.named d) (.named s))
  | .br n z p off =>
    some (.br ((if n then Config.condNegative else 0) ||| (if z then Config.condZero else 0) |||
      (if p then Config.condPositive else 0)) (BitVec.ofInt 9 off))
  | .jmp b => some (.jmp (.named b))
  | .ret => some (.jmp .r7)
  | .jsr off => some (.jsr (BitVec.ofInt 11 off))
  | .jsrr b => some (.jsrr (.named b))
  | .ld d off => some (.ld (.named d) (BitVec.ofInt 9 off))
  | .ldi d off => some (.ldi (.named d) (BitVec.ofInt 9 off))
  | .lea d off => some (.lea (.named d) (BitVec.ofInt 9 off))
  | .st s off => some (.st (.named s) (BitVec.ofInt 9 off))
  | .sti s off => some (.sti (.named s) (BitVec.ofInt 9 off))
  | .ldr d b off => some (.ldr (.named d) (.named b) (BitVec.ofInt 6 off))
  | .str s b off => some (.str (.named s) (.named b) (BitVec.ofInt 6 off))
  | .trap v => some (.trap (BitVec.ofNat 8 v))
  | .getc => some (.trap Config.trapGetc)
  | .out => some (.trap Config.trapOut)
  | .puts => some (.trap Config.trapPuts)
  | .inChar => some (.trap Config.trapIn)
  | .putsp => some (.trap Config.trapPutsp)
  | .halt => some (.trap Config.trapHalt)
  | .rti => some .rti
  | .res => some .res
  | .fill _ => none

/-- The word a well-formed line puts in its cell (R84); none for a line the notation does not allow. -/
def Asm.word (l : Asm) : Option Word :=
  if l.wellFormed then
    match l, l.instr with
    | .fill v, _ => some (BitVec.ofNat 16 v)
    | _, some i => some (encode i)
    | _, none => none
  else none

/-- A label at address `target` stands, in an instruction at `addr`, for the offset T − (A + 1) (R84). -/
def Asm.labelOffset (addr target : Word) : Int := (target.toNat : Int) - ((addr.toNat : Int) + 1)

end Sys2Proof
end

