-- ==== Sys2Proof/Machine/State.lean ====
section
/-! DEFINITION. The state of the machine (10_state.md), the state after reset (R31), and the reasons a step can stop. -/

namespace Sys2Proof.Machine

/-- The condition register COND: exactly one of three flags (R24). -/
inductive Cond
  | positive | zero | negative
deriving DecidableEq, Repr

/-- Why the machine aborted (R190, R191). -/
inductive AbortCause
  | rti | res
deriving DecidableEq, Repr

/-- The run state (R27). ABORTED carries the cause R191 records; no instruction reads it (log 8). -/
inductive RunState
  | running
  | halted
  | aborted (cause : AbortCause)
deriving DecidableEq, Repr

/-- The two places inside a step where the core waits in `ReadChar` (R199). -/
inductive WaitPoint
  /-- TRAP GETC (R152). -/
  | getc
  /-- TRAP IN, its prompt already written (R155). -/
  | inChar
deriving DecidableEq, Repr

/-- One word of the console input and the moment from which it is available (R30(a)), counted in polls: so many
`KeyAvailable` calls, made once it is the oldest undelivered word, still answer false (log 3). -/
structure InputWord where
  pollsBefore : Nat
  word : Word
deriving DecidableEq, Repr

/-- One event of the console output: a byte written (R13) or the flush marker (R14; log 5). -/
inductive ConsoleEvent
  | char (b : Byte)
  | flush
deriving DecidableEq, Repr

/-- An image as the loader is given it (R175), or one that cannot be opened (R183). -/
inductive Image
  | stream (bytes : List Byte)
  | unavailable
deriving DecidableEq, Repr

/-- The eight general registers (R20). -/
structure RegFile where
  r0 : Word
  r1 : Word
  r2 : Word
  r3 : Word
  r4 : Word
  r5 : Word
  r6 : Word
  r7 : Word
deriving DecidableEq, Repr

/-- Memory (R28): the cells that do not hold the reset value, as (address, value) pairs with addresses rising (log 1, log 2). -/
structure Memory where
  cells : List (Nat × Word)
deriving DecidableEq, Repr

/-- Why a step can answer no next state. Each is raised by `step`, none by an instruction on ordinary data. -/
inductive Fault
  /-- Raised by a step attempted in ABORTED: the terminal fault R172 asks for. Safe: the hardware takes no step there. -/
  | aborted (cause : AbortCause)
  /-- Raised by TRAP PUTS and TRAP PUTSP when no cell of memory is zero: the step never completes (R103, R154, R156).
  Safe: the hardware never reaches a next state either (log 9). -/
  | stringNeverEnds
  /-- Raised by the loader when an image cannot be opened: the core never takes its first step (R183). Safe. -/
  | imageLoadError
deriving DecidableEq, Repr

/-- Why the model has no meaning for an instruction. -/
inductive Refusal
  /-- Raised by `exec` for an instruction that has no meaning yet. Safe. No arm raises it in this model. -/
  | notModelled (mnemonic : String)
deriving DecidableEq, Repr

/-- The whole state (10_state.md; INVENTORY.md '## State'). -/
structure State where
  /-- R0 to R7 (R20). -/
  regs : RegFile
  /-- PC (R22). -/
  pc : Word
  /-- COND (R24). -/
  cond : Cond
  /-- The run state (R27). -/
  run : RunState
  /-- The 65,536 cells, KBSR and KBDR among them (R28, R29). -/
  mem : Memory
  /-- The console input not yet delivered, oldest first (R30(a)). -/
  input : List InputWord
  /-- The console output, oldest first (R30(b)). -/
  output : List ConsoleEvent
  /-- The wait the core stands in, if any (R7, R199). -/
  wait : Option WaitPoint
  /-- The images still to be loaded, in order (R175). -/
  images : List Image
deriving DecidableEq, Repr

/-- The machine after reset, before the loader and the first step (R31, R210). The console streams and the image list are
the environment's and stand empty (log 4, log 5, log 22). -/
def State.reset : State where
  regs := ⟨0, 0, 0, 0, 0, 0, 0, 0⟩
  pc := Config.pcStart
  cond := .zero
  run := .running
  mem := ⟨[]⟩
  input := []
  output := []
  wait := none
  images := []

end Sys2Proof.Machine
end

