-- ==== Sys2Proof/Machine/Ops.lean ====
section
/-! DEFINITION. The named operations over registers, memory, keyboard and console, the link, the abort and the fetch. -/

namespace Sys2Proof.Machine

/-! ### Registers -/

/-- `x[i]` of the register file (R21). -/
def RegFile.get (f : RegFile) : Reg → Word
  | .r0 => f.r0
  | .r1 => f.r1
  | .r2 => f.r2
  | .r3 => f.r3
  | .r4 => f.r4
  | .r5 => f.r5
  | .r6 => f.r6
  | .r7 => f.r7

/-- `x[i] <- v` of the register file (R21). No register is hardwired (R20). -/
def RegFile.set (f : RegFile) (r : Reg) (v : Word) : RegFile :=
  match r with
  | .r0 => { f with r0 := v }
  | .r1 => { f with r1 := v }
  | .r2 => { f with r2 := v }
  | .r3 => { f with r3 := v }
  | .r4 => { f with r4 := v }
  | .r5 => { f with r5 := v }
  | .r6 => { f with r6 := v }
  | .r7 => { f with r7 := v }

/-- `x[i]` (R21). -/
def State.x (s : State) (r : Reg) : Word := s.regs.get r

/-- `x[i] <- v` (R21). -/
def State.setReg (s : State) (r : Reg) (v : Word) : State := { s with regs := s.regs.set r v }

/-- `pc <- v` (R22). -/
def State.setPc (s : State) (v : Word) : State := { s with pc := v }

/-- `cond <- c` (R24). -/
def State.setCond (s : State) (c : Cond) : State := { s with cond := c }

/-- `run <- r` (R27). -/
def State.setRun (s : State) (r : RunState) : State := { s with run := r }

/-- The core enters or leaves a wait (R199). -/
def State.setWait (s : State) (w : Option WaitPoint) : State := { s with wait := w }

/-- The undelivered console input becomes `i` (R12). -/
def State.setInput (s : State) (i : List InputWord) : State := { s with input := i }

/-- The images still to load become `l` (R181). -/
def State.setImages (s : State) (l : List Image) : State := { s with images := l }

/-! ### Memory -/

/-- The canonical form: addresses strictly rising, all in the address space, no entry at the reset value. -/
abbrev Memory.wf (m : Memory) : Prop :=
  m.cells.Pairwise (fun c d => c.1 < d.1) ∧ ∀ c ∈ m.cells, c.1 < Config.memCells ∧ c.2 ≠ Config.resetCell

/-- The value listed for address `a`, the reset value when none is. -/
def lookupCell (a : Nat) : List (Nat × Word) → Word
  | [] => Config.resetCell
  | c :: rest => if c.1 = a then c.2 else lookupCell a rest

/-- The list with (a, v) put before the first entry of a higher address. -/
def insertCell (a : Nat) (v : Word) : List (Nat × Word) → List (Nat × Word)
  | [] => [(a, v)]
  | c :: rest => if a < c.1 then (a, v) :: c :: rest else c :: insertCell a v rest

/-- `mem[a]` (R28). -/
def Memory.get (m : Memory) (a : Word) : Word := lookupCell a.toNat m.cells

/-- `mem[a] <- v` (R28), in canonical form: a cell that takes the reset value is no longer listed. -/
def Memory.set (m : Memory) (a v : Word) : Memory :=
  let others := m.cells.filter fun c => c.1 != a.toNat
  ⟨if v = Config.resetCell then others else insertCell a.toNat v others⟩

/-- `MemCell(a)`: the stored cell, no poll (R44). -/
def State.memCell (s : State) (a : Word) : Word := s.mem.get a

/-- `MemWrite(a, 16, v)`: a pure store, at any address (R43). -/
def State.memWrite (s : State) (a v : Word) : State := { s with mem := s.mem.set a v }

/-! ### The console and the keyboard -/

/-- `KeyAvailable()`: is the oldest undelivered word available at this moment (R11)? -/
def State.keyAvailable (s : State) : Bool :=
  match s.input with
  | [] => false
  | k :: _ => k.pollsBefore == 0

/-- `ReadChar()`: the oldest undelivered word, removed from the input (R12). None when the host never delivers another:
the call then does not return. -/
def State.readChar (s : State) : Option (Word × State) :=
  match s.input with
  | [] => none
  | k :: rest => some (k.word, s.setInput rest)

/-- After a poll that found no key the oldest undelivered word is one poll nearer (log 3). No word is consumed (R11). -/
def State.pollMissed (s : State) : State :=
  match s.input with
  | [] => s
  | k :: rest => s.setInput (⟨k.pollsBefore - 1, k.word⟩ :: rest)

/-- The poll a `MemRead` of KBSR makes (R42): a key found is consumed and put in KBDR with READY set in KBSR; with none
KBSR is cleared and KBDR kept. -/
def State.poll (s : State) : State :=
  match s.keyAvailable, s.readChar with
  | true, some (c, s1) => (s1.memWrite Config.kbsr Config.kbsrReady).memWrite Config.kbdr c
  | _, _ => s.pollMissed.memWrite Config.kbsr Config.kbsrIdle

/-- `MemRead(a, 16)`: the polling read (R42): the word and the state after the poll. -/
def State.memRead (s : State) (a : Word) : Word × State :=
  let s1 := if a = Config.kbsr then s.poll else s
  (s1.memCell a, s1)

/-- The console output with the events `es` after it. -/
def State.emit (s : State) (es : List ConsoleEvent) : State := { s with output := s.output ++ es }

/-- `WriteChar(b)` (R13). -/
def State.writeChar (s : State) (b : Byte) : State := s.emit [.char b]

/-- `WriteChar` of each byte in order (R155, R157). -/
def State.writeChars (s : State) (bs : List Byte) : State := s.emit (bs.map .char)

/-- `Flush()` (R14). -/
def State.flush (s : State) : State := s.emit [.flush]

/-- The environment's move: the host will deliver the word `w`, after `n` more polls in vain (R4, R12). No instruction
calls it; it may happen between any two steps. -/
def State.hostSends (s : State) (n : Nat) (w : Word) : State := s.setInput (s.input ++ [⟨n, w⟩])

/-- The cells of a string from `a` up to its terminating zero cell, addresses wrapping (R154, R156), looking at no more
than `fuel` cells. -/
def State.stringWithin (s : State) : Nat → Word → Option (List Word)
  | 0, _ => none
  | fuel + 1, a =>
    if s.memCell a = 0x0000 then some []
    else (s.stringWithin fuel (a + 1)).map (s.memCell a :: ·)

/-- The string at `a`. None when no cell of the whole memory is zero: the scan never ends (R103, R154). -/
def State.stringAt (s : State) (a : Word) : Option (List Word) := s.stringWithin Config.memCells a

/-! ### Link, abort, fetch -/

/-- LINK: R7 takes the incremented pc (R122, R123, R150). It does not update COND (R26). -/
def State.link (s : State) : State := s.setReg .r7 s.pc

/-- `raise Abort(cause)`: `run <- ABORTED` and nothing else (R190). No state is saved, there is no handler and no return. -/
def State.abort (s : State) (c : AbortCause) : State := s.setRun (.aborted c)

/-- The numeric code of a cause: its opcode number (R191). -/
def AbortCause.code : AbortCause → BitVec 4
  | .rti => Config.opcodeMap .rti
  | .res => Config.opcodeMap .res

/-- The first two lines of the step (R100): the word at pc, read with the polling read, and pc incremented (R22). -/
def State.fetch (s : State) : Word × State :=
  let r := s.memRead s.pc
  (r.1, r.2.setPc (s.pc + 1))

end Sys2Proof.Machine
end

