-- ==== Sys2Proof/Machine/Operands.lean ====
section
/-! DEFINITION. The operand forms (30_encoding.md R79) and the addressing modes (43_load.md R134). -/

namespace Sys2Proof.Machine

/-- `sext_N` (00_scope.md R8): if the sign bit is set, OR with a mask that sets all higher bits. -/
def sext {n : Nat} (v : BitVec n) : Word :=
  if v.msb then v.setWidth 16 ||| (0xFFFF#16 <<< n) else v.setWidth 16

/-- Bits 7:0 of a word. -/
def lowByte (w : Word) : Byte := w.extractLsb' 0 8

/-- Bits 15:8 of a word. -/
def highByte (w : Word) : Byte := w.extractLsb' 8 8

/-- PC-relative: the incremented pc plus the sign-extended offset, modulo 2^16 (R134). -/
def State.pcRel {n : Nat} (s : State) (off : BitVec n) : Word := s.pc + sext off

/-- Base plus offset, modulo 2^16 (R134). -/
def State.baseOff (s : State) (base : Reg) (off : BitVec 6) : Word := s.x base + sext off

/-- The ALU's sum: modulo 2^16, no carry, no overflow (R9, R115). -/
def aluAdd (a b : Word) : Word := a + b

/-- The ALU's bitwise AND (R115). -/
def aluAnd (a b : Word) : Word := a &&& b

/-- The ALU's bitwise complement (R114, R115). -/
def aluNot (a : Word) : Word := ~~~a

/-- The characters a cell of a PUTSP string packs: the low byte, then the high byte if it is not zero (R156). -/
def packedBytes (w : Word) : List Byte :=
  if highByte w = 0x00 then [lowByte w] else [lowByte w, highByte w]

end Sys2Proof.Machine
end

