-- ==== Sys2Proof/Machine/Flags.lean ====
section
/-! DEFINITION. The condition flag: its update (10_state.md R25), its code (R24) and the branch test (R120). -/

namespace Sys2Proof.Machine

/-- The flag of a value: ZERO for 0x0000, NEGATIVE when bit 15 is set, else POSITIVE (R25). -/
def condOf (v : Word) : Cond :=
  if v = 0x0000 then .zero
  else if v.getLsbD 15 then .negative
  else .positive

/-- `setcc(i)`: COND from the current value of Ri (R25). -/
def State.setcc (s : State) (r : Reg) : State := s.setCond (condOf (s.x r))

/-- `x[DR] <- v` then `setcc(DR)`: how every result-producing instruction ends (R25, R26). -/
def State.writeResult (s : State) (dr : Reg) (v : Word) : State := (s.setReg dr v).setcc dr

/-- The 3-bit code of a flag (R24). -/
def Cond.code : Cond → BitVec 3
  | .positive => Config.condPositive
  | .zero => Config.condZero
  | .negative => Config.condNegative

/-- `(cond3 & COND) ≠ 0` (R120). -/
def State.branchTaken (s : State) (cond3 : BitVec 3) : Bool := cond3 &&& s.cond.code != 0

end Sys2Proof.Machine
end

