-- ==== Sys2Proof/Machine/Control.lean ====
section
/-! DEFINITION. BR, JMP, JSR, JSRR (42_control.md). The state they get has pc already incremented (R100). -/

namespace Sys2Proof.Machine

/-- BR (R120). -/
def execBr (cond3 : BitVec 3) (off : BitVec 9) (s : State) : Host.Outcome State Fault Refusal :=
  .next (if s.branchTaken cond3 then s.setPc (s.pcRel off) else s)

/-- JMP, and RET as `JMP R7` (R121). -/
def execJmp (base : Reg) (s : State) : Host.Outcome State Fault Refusal :=
  .next (s.setPc (s.x base))

/-- JSR (R122): the link and the target come from the same incremented pc. -/
def execJsr (off : BitVec 11) (s : State) : Host.Outcome State Fault Refusal :=
  .next (s.link.setPc (s.pcRel off))

/-- JSRR (R123): the link first, then the jump, so `JSRR R7` falls through (D16; log 20). -/
def execJsrr (base : Reg) (s : State) : Host.Outcome State Fault Refusal :=
  .next (s.link.setPc (s.link.x base))

end Sys2Proof.Machine
end

