-- ==== Sys2Proof/Machine/Load.lean ====
section
/-! DEFINITION. LD, LDI, LDR, LEA (43_load.md). Every memory read is the polling read (R45). -/

namespace Sys2Proof.Machine

/-- LD (R130): the loaded word is ADDED to DR (LD_ACCUMULATE; log 21). -/
def execLd (dr : Reg) (off : BitVec 9) (s : State) : Host.Outcome State Fault Refusal :=
  let r := s.memRead (s.pcRel off)
  .next (r.2.writeResult dr (if Config.ldAccumulate then aluAdd (s.x dr) r.1 else r.1))

/-- LDI (R131): the inner read first, then the outer. -/
def execLdi (dr : Reg) (off : BitVec 9) (s : State) : Host.Outcome State Fault Refusal :=
  let p := s.memRead (s.pcRel off)
  let r := p.2.memRead p.1
  .next (r.2.writeResult dr r.1)

/-- LDR (R132). -/
def execLdr (dr base : Reg) (off : BitVec 6) (s : State) : Host.Outcome State Fault Refusal :=
  let r := s.memRead (s.baseOff base off)
  .next (r.2.writeResult dr r.1)

/-- LEA (R133): no memory access; COND is updated. -/
def execLea (dr : Reg) (off : BitVec 9) (s : State) : Host.Outcome State Fault Refusal :=
  .next (s.writeResult dr (s.pcRel off))

end Sys2Proof.Machine
end

