-- ==== Sys2Proof/Machine/Reserved.lean ====
section
/-! DEFINITION. RTI and RES (46_reserved.md): both abort (R190) and restore nothing (R170). -/

namespace Sys2Proof.Machine

/-- RTI (R170). -/
def execRti (s : State) : Host.Outcome State Fault Refusal := .next (s.abort .rti)

/-- RES (R171). -/
def execRes (s : State) : Host.Outcome State Fault Refusal := .next (s.abort .res)

end Sys2Proof.Machine
end

