-- ==== Sys2Proof/Machine/Store.lean ====
section
/-! DEFINITION. ST, STI, STR (44_store.md). Every store is the pure store (R43). -/

namespace Sys2Proof.Machine

/-- ST (R140). -/
def execSt (sr : Reg) (off : BitVec 9) (s : State) : Host.Outcome State Fault Refusal :=
  .next (s.memWrite (s.pcRel off) (s.x sr))

/-- STI (R141): the pointer read comes first and polls; the write never does. -/
def execSti (sr : Reg) (off : BitVec 9) (s : State) : Host.Outcome State Fault Refusal :=
  let p := s.memRead (s.pcRel off)
  .next (p.2.memWrite p.1 (s.x sr))

/-- STR (R142). -/
def execStr (sr base : Reg) (off : BitVec 6) (s : State) : Host.Outcome State Fault Refusal :=
  .next (s.memWrite (s.baseOff base off) (s.x sr))

end Sys2Proof.Machine
end

