-- ==== Sys2Proof/Machine/Trap.lean ====
section
/-! DEFINITION. TRAP and its services (45_trap.md), and the wait inside GETC and IN (60_exceptions.md R199). -/

namespace Sys2Proof.Machine

/-- What GETC and IN do with the word `ReadChar` returned: IN echoes its low byte and flushes (R155), then both write R0
and set COND from it (R152). -/
def State.deliver (s : State) (w : WaitPoint) (c : Word) : State :=
  match w with
  | .getc => s.writeResult .r0 c
  | .inChar => ((s.writeChar (lowByte c)).flush).writeResult .r0 c

/-- `ReadChar` inside GETC or IN: with a word to come the step completes; with none the core stands in the wait, R7
already written and nothing else done (R199; log 6). Resuming a wait is the same call again. -/
def State.receive (s : State) (w : WaitPoint) : State :=
  match s.readChar with
  | some (c, s1) => (s1.setWait none).deliver w c
  | none => s.setWait (some w)

/-- GETC after the link (R152). -/
def State.serviceGetc (s : State) : State := s.receive .getc

/-- OUT after the link (R153). -/
def State.serviceOut (s : State) : State := (s.writeChar (lowByte (s.x .r0))).flush

/-- IN after the link (R155; log 26). -/
def State.serviceIn (s : State) : State := (s.writeChars Config.inPrompt).receive .inChar

/-- HALT after the link (R157). -/
def State.serviceHalt (s : State) : State := ((s.writeChars Config.haltNotice).flush).setRun .halted

/-- PUTS and PUTSP after the link: the characters of each cell of the string at R0, then a flush (R154, R156). When no
cell of memory is zero the step never completes (R103; log 9). -/
def State.serviceString (s : State) (chars : Word → List Byte) : Host.Outcome State Fault Refusal :=
  match s.stringAt (s.x .r0) with
  | some ws => .next ((s.writeChars (ws.flatMap chars)).flush)
  | none => .fault .stringNeverEnds

/-- TRAP (R150): the link first, for every vector; then the service. Any other vector does nothing more (R158; log 15). -/
def execTrap (vect : Byte) (s : State) : Host.Outcome State Fault Refusal :=
  let l := s.link
  if vect = Config.trapGetc then .next l.serviceGetc
  else if vect = Config.trapOut then .next l.serviceOut
  else if vect = Config.trapPuts then l.serviceString (fun w => [lowByte w])
  else if vect = Config.trapIn then .next l.serviceIn
  else if vect = Config.trapPutsp then l.serviceString packedBytes
  else if vect = Config.trapHalt then .next l.serviceHalt
  else .next l

end Sys2Proof.Machine
end

