-- ==== Sys2Proof/Machine/Loader.lean ====
section
/-! DEFINITION. The binary image loader (47_image_loader.md), one step per image (log 22). -/

namespace Sys2Proof.Machine

/-- A big-endian pair of bytes: the first is bits 15:8 (R176, R177). -/
def wordOfBytes (hi lo : Byte) : Word := hi ++ lo

/-- The complete words of a stream; a trailing odd byte belongs to none (R177). -/
def wordsOfBytes : List Byte → List Word
  | hi :: lo :: rest => wordOfBytes hi lo :: wordsOfBytes rest
  | _ => []

/-- The words in consecutive cells from `a` (R178). -/
def Memory.placeWords (m : Memory) : Word → List Word → Memory
  | _, [] => m
  | a, w :: ws => (m.set a w).placeWords (a + 1) ws

/-- One image: its first word is the origin, at most 65536 − origin of the others are loaded from there, the rest is
silently ignored (R176 to R179). A stream with no complete origin loads nothing (R180). -/
def Memory.loadImage (m : Memory) : List Byte → Memory
  | hi :: lo :: rest =>
    let origin := wordOfBytes hi lo
    m.placeWords origin ((wordsOfBytes rest).take (Config.memCells - origin.toNat))
  | _ => m

/-- The loader's step: the next image, in order (R181). It writes no register (R182). An image that cannot be opened ends
the run before any execution (R183; log 24). -/
def loadNext (image : Image) (rest : List Image) (s : State) : Host.Outcome State Fault Refusal :=
  match image with
  | .stream bytes => .next { s with mem := s.mem.loadImage bytes, images := rest }
  | .unavailable => .fault .imageLoadError

/-- The machine after reset with the images given to its loader (R210). -/
def State.boot (images : List Image) : State := State.reset.setImages images

end Sys2Proof.Machine
end

