-- ==== Sys2Proof/Machine/Step.lean ====
section
/-! DEFINITION. One step of the machine (40_fetch_decode_step.md R100, R102) and where it fetches its next instruction. -/

namespace Sys2Proof.Machine

/-- Fetch, increment, decode, dispatch (R100). -/
def runInstr (s : State) : Host.Outcome State Fault Refusal :=
  exec (decode s.fetch.1) s.fetch.2

/-- One step. HALTED is terminal and the state stays (R102, D23; log 7); in ABORTED there is no step, a fault (R172;
log 8). While images remain the loader loads the next (R4, R210); a core that waits tries its `ReadChar` again (R199). -/
def step (s : State) : Host.Outcome State Fault Refusal :=
  match s.run with
  | .halted => .next s
  | .aborted c => .fault (.aborted c)
  | .running =>
    match s.images with
    | image :: rest => loadNext image rest s
    | [] =>
      match s.wait with
      | some w => .next (s.receive w)
      | none => runInstr s

/-- `s` with the table word in the cell at pc and the core about to fetch it: RUNNING, no image to load, no wait
(log 22). At pc = 0xFE00 the fetch polls and overwrites the cell (R42), so that no stored word is fetched there. -/
def State.withFetchWord (s : State) (nbits w : Nat) : State :=
  ((((s.setRun .running).setImages []).setWait none)).memWrite s.pc (tableWord nbits w)

end Sys2Proof.Machine
end

