-- ==== Sys2Proof/Safety.lean ====
section
/-! DEFINITION. The terms in which claims about the machine are stated: the invariant, what an instruction keeps, and
what the spec says of a flag, a polling read, a string and an image, each in the spec's own numbers. -/

namespace Sys2Proof.Machine

/-! ### Whole states -/

/-- The core is about to fetch: RUNNING (R100), no image left to load (R210), not inside a wait (R199). -/
abbrev State.Ready (s : State) : Prop := s.run = .running ∧ s.images = [] ∧ s.wait = none

/-- What every step keeps. While the core waits and once it has halted R7 holds the link, which is pc (R104, R199). -/
structure State.Inv (s : State) : Prop where
  /-- Memory is in its canonical form. -/
  memWf : s.mem.wf
  /-- A wait is a wait of a RUNNING core, after the link and before anything else of the service (R199). -/
  waiting : s.wait ≠ none → s.run = .running ∧ s.images = [] ∧ s.x .r7 = s.pc
  /-- HALTED is reached by TRAP HALT only, which linked R7 (R104, R157). -/
  halted : s.run = .halted → s.x .r7 = s.pc
  /-- The loader is done before the core's first step (R4, R182). -/
  loaded : s.run ≠ .running → s.images = []

/-- `f` applied to the next state, if there is one. -/
def mapNext (f : State → State) : Host.Outcome State Fault Refusal → Host.Outcome State Fault Refusal
  | .next s => .next (f s)
  | .fault e => .fault e
  | .refused e => .refused e

/-! ### Frames -/

/-- Every general register but those of `rs` is unchanged. -/
def KeepsRegsBut (rs : List Reg) (s t : State) : Prop := ∀ r, r ∉ rs → t.x r = s.x r

/-- Every cell of memory reads as before. -/
def KeepsMem (s t : State) : Prop := ∀ a, t.memCell a = s.memCell a

/-- Every cell of memory but the one at `a` reads as before. -/
def KeepsMemBut (a : Word) (s t : State) : Prop := ∀ b, b ≠ a → t.memCell b = s.memCell b

/-- Nothing was consumed from the console input and nothing written to the output. -/
def KeepsConsole (s t : State) : Prop := t.input = s.input ∧ t.output = s.output

/-- Run state, wait and images are unchanged. -/
def KeepsControl (s t : State) : Prop := t.run = s.run ∧ t.wait = s.wait ∧ t.images = s.images

/-- Only DR and COND may differ: the frame of ADD, AND, NOT, LEA. -/
def OnlyResult (dr : Reg) (s t : State) : Prop :=
  KeepsRegsBut [dr] s t ∧ t.pc = s.pc ∧ KeepsMem s t ∧ KeepsConsole s t ∧ KeepsControl s t

/-- Only pc and the registers of `rs` may differ: the frame of the control transfers. -/
def OnlyPcAnd (rs : List Reg) (s t : State) : Prop :=
  KeepsRegsBut rs s t ∧ t.cond = s.cond ∧ KeepsMem s t ∧ KeepsConsole s t ∧ KeepsControl s t

/-- Only memory and the console input may differ: the frame of the stores, whose memory is said beside it. -/
def OnlyMemAndInput (s t : State) : Prop :=
  KeepsRegsBut [] s t ∧ t.pc = s.pc ∧ t.cond = s.cond ∧ t.output = s.output ∧ KeepsControl s t

/-- Only DR, COND, memory and the console input may differ: the frame of the loads, whose memory is said beside it. -/
def OnlyLoaded (dr : Reg) (s t : State) : Prop :=
  KeepsRegsBut [dr] s t ∧ t.pc = s.pc ∧ t.output = s.output ∧ KeepsControl s t

/-! ### The rules' own words -/

/-- `c` is the one flag of the value `v` (R25): ZERO for 0, NEGATIVE from 0x8000 on, else POSITIVE. -/
def FlagOf (v : Word) (c : Cond) : Prop :=
  (c = .zero ↔ v.toNat = 0) ∧ (c = .negative ↔ 32768 ≤ v.toNat) ∧ (c = .positive ↔ 0 < v.toNat ∧ v.toNat < 32768)

/-- A word a poll made now would find (R11): the oldest undelivered one, available at this moment. -/
def KeyReady (s : State) (c : Word) (rest : List InputWord) : Prop := s.input = ⟨0, c⟩ :: rest

/-- No word is available at this moment. -/
def NoKeyReady (s : State) : Prop := ∀ c rest, ¬ KeyReady s c rest

/-- The words the host has still to deliver, in order (R12). -/
def State.pendingWords (s : State) : List Word := s.input.map (·.word)

/-- What `MemRead(a, 16)` returns in `s` (R42): of KBSR 0x8000 with a key ready and 0x0000 with none, of any other
address the stored cell. -/
def ReadsAs (a : Word) (s : State) (v : Word) : Prop :=
  (a = 0xFE00 → (∀ c rest, KeyReady s c rest → v = 0x8000) ∧ (NoKeyReady s → v = 0x0000)) ∧
  (a ≠ 0xFE00 → v = s.memCell a)

/-- What `MemRead(a, 16)` does to memory and to the console input (R42): nothing unless `a` is KBSR; there a key found is
consumed, KBSR becomes 0x8000 and KBDR the key; with none KBSR becomes 0x0000, KBDR stays and no word is consumed. -/
def PolledAt (a : Word) (s t : State) : Prop :=
  (a ≠ 0xFE00 → KeepsMem s t ∧ t.input = s.input) ∧
  (a = 0xFE00 →
    (∀ c rest, KeyReady s c rest →
      t.input = rest ∧ t.memCell 0xFE00 = 0x8000 ∧ t.memCell 0xFE02 = c ∧
      ∀ b, b ≠ 0xFE00 → b ≠ 0xFE02 → t.memCell b = s.memCell b) ∧
    (NoKeyReady s →
      t.pendingWords = s.pendingWords ∧ t.memCell 0xFE00 = 0x0000 ∧ KeepsMemBut 0xFE00 s t))

/-- `ws` are the cells of the string at `a`: none is zero and the cell after them is (R154). -/
def StringCells (s : State) (a : Word) (ws : List Word) : Prop :=
  (∀ k w, ws[k]? = some w → s.memCell (a + BitVec.ofNat 16 k) = w ∧ w ≠ 0x0000) ∧
  s.memCell (a + BitVec.ofNat 16 ws.length) = 0x0000

/-- Byte `k` of an image stream, 0 past its end. -/
def byteAt (bytes : List Byte) (k : Nat) : Nat := (bytes.getD k 0).toNat

/-- origin = (B[0] << 8) | B[1] (R176). -/
def imageOrigin (bytes : List Byte) : Nat := byteAt bytes 0 * 256 + byteAt bytes 1

/-- K = min(floor((n − 2) / 2), 65536 − origin): the words an image loads (R177, R179). -/
def imageWords (bytes : List Byte) : Nat := min ((bytes.length - 2) / 2) (65536 - imageOrigin bytes)

/-- word(k) = (B[2 + 2k] << 8) | B[3 + 2k] (R177). -/
def imageWord (bytes : List Byte) (k : Nat) : Nat := byteAt bytes (2 + 2 * k) * 256 + byteAt bytes (3 + 2 * k)

/-! ### Which instruction reads and writes what (R21, R23, R26) -/

/-- The general registers whose value an instruction reads (R21). -/
def readsRegs : Instr → List Reg
  | .br _ _ => []
  | .addReg _ s t => [s, t]
  | .addImm _ s _ => [s]
  | .ld d _ => [d]
  | .st s _ => [s]
  | .jsrr b => [b]
  | .jsr _ => []
  | .andReg _ s t => [s, t]
  | .andImm _ s _ => [s]
  | .ldr _ b _ => [b]
  | .str s b _ => [s, b]
  | .rti => []
  | .not _ s => [s]
  | .ldi _ _ => []
  | .sti s _ => [s]
  | .jmp b => [b]
  | .res => []
  | .lea _ _ => []
  | .trap v => if v = 0x21 ∨ v = 0x22 ∨ v = 0x24 then [.r0] else []

/-- The general registers an instruction writes (R21). -/
def writesRegs : Instr → List Reg
  | .br _ _ => []
  | .addReg d _ _ => [d]
  | .addImm d _ _ => [d]
  | .ld d _ => [d]
  | .st _ _ => []
  | .jsrr _ => [.r7]
  | .jsr _ => [.r7]
  | .andReg d _ _ => [d]
  | .andImm d _ _ => [d]
  | .ldr d _ _ => [d]
  | .str _ _ _ => []
  | .rti => []
  | .not d _ => [d]
  | .ldi d _ => [d]
  | .sti _ _ => []
  | .jmp _ => []
  | .res => []
  | .lea d _ => [d]
  | .trap v => if v = 0x20 ∨ v = 0x23 then [.r7, .r0] else [.r7]

/-- The register from which an instruction updates COND: DR of the seven, R0 of GETC and IN (R26). -/
def flagReg : Instr → Option Reg
  | .br _ _ => none
  | .addReg d _ _ => some d
  | .addImm d _ _ => some d
  | .ld d _ => some d
  | .st _ _ => none
  | .jsrr _ => none
  | .jsr _ => none
  | .andReg d _ _ => some d
  | .andImm d _ _ => some d
  | .ldr d _ _ => some d
  | .str _ _ _ => none
  | .rti => none
  | .not d _ => some d
  | .ldi d _ => some d
  | .sti _ _ => none
  | .jmp _ => none
  | .res => none
  | .lea d _ => some d
  | .trap v => if v = 0x20 ∨ v = 0x23 then some .r0 else none

/-- An instruction that calls `ReadChar`: TRAP GETC or TRAP IN (R199). -/
abbrev ReadsChar (i : Instr) : Prop := i = .trap 0x20 ∨ i = .trap 0x23

/-- An instruction whose effect is a store: ST, STI, STR (R45). -/
abbrev Stores (i : Instr) : Prop := (∃ r o, i = .st r o) ∨ (∃ r o, i = .sti r o) ∨ ∃ r b o, i = .str r b o

/-- BR, JMP, JSR, JSRR: the instructions that write pc (R23). -/
def writesPc : Instr → Bool
  | .br _ _ => true
  | .addReg _ _ _ => false
  | .addImm _ _ _ => false
  | .ld _ _ => false
  | .st _ _ => false
  | .jsrr _ => true
  | .jsr _ => true
  | .andReg _ _ _ => false
  | .andImm _ _ _ => false
  | .ldr _ _ _ => false
  | .str _ _ _ => false
  | .rti => false
  | .not _ _ => false
  | .ldi _ _ => false
  | .sti _ _ => false
  | .jmp _ => true
  | .res => false
  | .lea _ _ => false
  | .trap _ => false

end Sys2Proof.Machine
end

