-- ==== Sys2Proof/Certificates/Slice0/Obligations.lean ====
section
/-! DEFINITION. The statements about the machine, for the provers. Each docstring names the rules of spec/ it rests on. -/

open Sys2Proof Sys2Proof.Machine

/-! ### Encoding -/

/-- 30_encoding.md R72 to R79: the encoder's word of any instruction decodes to it. -/
def Obligations.DecodeInvertsEncode : Prop :=
  ∀ i : Instr, decode (encode i) = i

/-- R80 with D6 (log 14): encoding what a word decodes to gives the word back on every bit its row does not ignore. -/
def Obligations.EncodeInvertsDecodeOnUsedBits : Prop :=
  ∀ w : Word, encode (decode w) &&& ~~~(decode w).row.ignored = w &&& ~~~(decode w).row.ignored

/-- R82 and the layout of opcode_table.json (D3, log 11; D4, log 12): every word matches exactly one of the 19 rows, the one
it decodes to. -/
def Obligations.TableRowsPartitionAllWords : Prop :=
  opcodeTable.length = 19 ∧
  ∀ w : Word, (decode w).row ∈ opcodeTable ∧ ∀ r, r ∈ opcodeTable → (w &&& r.mask = r.pattern ↔ r = (decode w).row)

/-- R80 as D6 decides it (log 14, DEDUCED; the source is silent on these bits): words that differ only in bits their row
ignores decode to the same instruction. -/
def Obligations.IgnoredBitsNeverChangeDecoding : Prop :=
  ∀ w v : Word, w &&& ~~~(decode w).row.ignored = v &&& ~~~(decode w).row.ignored → decode v = decode w

/-- 95_test_vectors.md 2.11: the words of that table decode as it says. The opcode numbers but ADD's and some field places
are PRESUMED (D3, log 11; D4, log 12), and with them every word here but 0x1020, the source's own. -/
def Obligations.TabulatedWordsDecode : Prop :=
  decode 0x1020 = .addImm .r0 .r0 0 ∧ decode 0x1443 = .addReg .r2 .r1 .r3 ∧ decode 0x5642 = .andReg .r3 .r1 .r2 ∧
  decode 0x52B0 = .andImm .r1 .r2 0b10000 ∧ decode 0x92BF = .not .r1 .r2 ∧ decode 0x03FD = .br 0b001 0x1FD ∧
  decode 0xC1C0 = .jmp .r7 ∧ decode 0x4803 = .jsr 3 ∧ decode 0x40C0 = .jsrr .r3 ∧ decode 0x2405 = .ld .r2 5 ∧
  decode 0xA202 = .ldi .r1 2 ∧ decode 0x66BF = .ldr .r3 .r2 0x3F ∧ decode 0xE1FF = .lea .r0 0x1FF ∧
  decode 0x3204 = .st .r1 4 ∧ decode 0xB202 = .sti .r1 2 ∧ decode 0x7681 = .str .r3 .r2 1 ∧ decode 0xF025 = .trap 0x25 ∧
  decode 0x8000 = .rti ∧ decode 0xD000 = .res ∧ decode 0x0000 = .br 0 0 ∧ decode 0xFFFF = .trap 0xFF

/-- R84: a line of the notation has a word exactly when it is well formed; the word of an instruction line decodes to its
instruction; a signed operand in the field's range is the number the hardware extends the field to; and a label that fits
makes a PC-relative instruction at `addr` refer to the label's address. The notation is the spec's own (D25; log 29). -/
def Obligations.NotationMeansItsWords : Prop :=
  (∀ l : Asm, l.word.isSome = l.wellFormed) ∧
  (∀ (l : Asm) (i : Instr) (w : Word), l.word = some w → l.instr = some i → decode w = i) ∧
  (∀ n v, 1 ≤ n → n ≤ 16 → signedOk n v = true → (sext (BitVec.ofInt n v)).toInt = v) ∧
  (∀ addr target : Word, signedOk 9 (Asm.labelOffset addr target) = true →
    (addr + 1) + sext (BitVec.ofInt 9 (Asm.labelOffset addr target)) = target) ∧
  (∀ addr target : Word, signedOk 11 (Asm.labelOffset addr target) = true →
    (addr + 1) + sext (BitVec.ofInt 11 (Asm.labelOffset addr target)) = target)

/-- 00_scope.md R8, whole: the formula, its meaning as a signed number, `sext_16`, and the document's two examples. -/
def Obligations.SignExtensionKeepsSignedValue : Prop :=
  (∀ n, 1 ≤ n → n ≤ 16 → ∀ v : BitVec n,
    (v.getLsbD (n - 1) = true → sext v = v.setWidth 16 ||| ((0xFFFF#16 <<< n) &&& 0xFFFF#16)) ∧
    (v.getLsbD (n - 1) = false → sext v = v.setWidth 16) ∧
    (sext v).toInt = v.toInt) ∧
  (∀ v : BitVec 16, sext v = v) ∧ sext 0b11111#5 = 0xFFFF ∧ sext 0b01111#5 = 0x000F

/-! ### Reset, the invariant and the shape of a step -/

/-- 10_state.md R31: what reset leaves. That every cell is zero is D26; the empty console streams and image list are the
model's own (log 4, log 5, log 22) and are not claimed here. -/
def Obligations.ResetLeavesStatedValues : Prop :=
  (∀ r, State.reset.x r = 0x0000) ∧ State.reset.pc = 0x3000 ∧ State.reset.cond = .zero ∧ State.reset.run = .running ∧
  ∀ a, State.reset.memCell a = 0x0000

/-- The invariant holds after reset, and with any images given to the loader. -/
def Obligations.ResetMeetsInvariant : Prop :=
  State.reset.Inv ∧ ∀ images, (State.boot images).Inv

/-- Every step keeps the invariant: canonical memory, R7 = pc while waiting and once halted (R104, R199), the loader done
before the core leaves RUNNING or waits (R182). -/
def Obligations.EveryStepKeepsInvariant : Prop :=
  ∀ s t : State, s.Inv → step s = .next t → t.Inv

/-- 40_fetch_decode_step.md R100: a step reads the word at pc with the polling read (D11), increments pc modulo 2^16 and
runs the instruction the word decodes to. -/
def Obligations.StepRunsDecodedInstruction : Prop :=
  ∀ s : State, s.Ready →
    ∃ (w : Word) (t : State), step s = exec (decode w) t ∧ ReadsAs s.pc s w ∧ PolledAt s.pc s t ∧
      t.pc.toNat = (s.pc.toNat + 1) % 65536 ∧ KeepsRegsBut [] s t ∧ t.cond = s.cond ∧ t.output = s.output ∧ KeepsControl s t ∧
      (s.pc ≠ 0xFE00 → w = s.memCell s.pc ∧ t = s.setPc (s.pc + 1))

/-- `withFetchWord` stores a table word where the next step fetches: that step runs what the decoder reads from the word.
At 0xFE00 no stored word is fetched (R42), so that address is left out (log 22). -/
def Obligations.FetchWordIsRunNext : Prop :=
  ∀ (s : State) (nbits w : Nat) (i : Instr), s.pc ≠ 0xFE00 → decodeTableWord nbits w = some i →
    step (s.withFetchWord nbits w) = exec i ((s.withFetchWord nbits w).setPc (s.pc + 1))

/-- 46_reserved.md R170 and 70_reset_and_hazards.md R213, corner case: a fetch from 0xFE00 with a key pending runs RTI and
aborts; with none it runs the no-op word. Both rest on D11 (log 18), on D8 (log 16) and on the opcode numbers of D3 (log 11). -/
def Obligations.FetchFromKeyboardStatus : Prop :=
  ∀ s : State, s.Ready → s.pc = 0xFE00 →
    (∀ c rest, KeyReady s c rest → ∃ t, step s = .next t ∧ t.run = .aborted .rti ∧ t.pc = 0xFE01 ∧
      KeepsRegsBut [] s t ∧ t.cond = s.cond ∧ t.output = s.output ∧ PolledAt 0xFE00 s t) ∧
    (NoKeyReady s → ∃ t, step s = .next t ∧ t.run = .running ∧ t.pc = 0xFE01 ∧
      KeepsRegsBut [] s t ∧ t.cond = s.cond ∧ t.output = s.output ∧ PolledAt 0xFE00 s t)

/-- R102, R172, R191: HALTED is terminal and the state stays as it is (log 7); in ABORTED a step is a fault that names the
cause (log 8), whose code is the opcode number (D24), presumed (D3; log 11). -/
def Obligations.HaltedAndAbortedAreTerminal : Prop :=
  (∀ s : State, s.run = .halted → step s = .next s) ∧
  (∀ (s : State) (c : AbortCause), s.run = .aborted c → step s = .fault (.aborted c)) ∧
  AbortCause.rti.code = 8 ∧ AbortCause.res.code = 13

/-- R103, R192: no step is refused, and each fault is answered exactly where the spec gives the step no end: in ABORTED, on
an image that cannot be opened, and on a string with no zero cell anywhere in memory (log 8, 24, 9). -/
def Obligations.StepFaultsOnlyWhereNamed : Prop :=
  ∀ s : State,
    (∀ r, step s ≠ .refused r) ∧
    (∀ c, step s = .fault (.aborted c) ↔ s.run = .aborted c) ∧
    (step s = .fault .imageLoadError ↔ s.run = .running ∧ s.images.head? = some .unavailable) ∧
    (step s = .fault .stringNeverEnds ↔
      s.Ready ∧ (decode s.fetch.1 = .trap 0x22 ∨ decode s.fetch.1 = .trap 0x24) ∧ ∀ a, s.fetch.2.memCell a ≠ 0x0000)

/-- R27, R102: the run state becomes HALTED by TRAP HALT only and ABORTED by RTI and RES only; ABORTED as a state of its own
with the cause in it is D2 (log 8). A step that runs no instruction (the loader's, a wait's, one in HALTED; log 6, log 7,
log 22) changes neither the run state nor pc. -/
def Obligations.RunStateChangesOnlyByHaltAndAbort : Prop :=
  ∀ s t : State, step s = .next t →
    (s.Ready →
      (t.run = .halted ↔ decode s.fetch.1 = .trap 0x25) ∧
      (t.run = .aborted .rti ↔ decode s.fetch.1 = .rti) ∧
      (t.run = .aborted .res ↔ decode s.fetch.1 = .res)) ∧
    (¬ s.Ready → t.run = s.run ∧ t.pc = s.pc)

/-- 20_memory.md R56: a word stored to the next instruction's cell is the word the next step runs. -/
def Obligations.StoreIsSeenByNextFetch : Prop :=
  ∀ (s : State) (sr : Reg), s.Ready → s.pc ≠ 0xFE00 → s.pc + 1 ≠ 0xFE00 → decode (s.memCell s.pc) = .st sr 0 →
    ∃ t, step s = .next t ∧ step t = exec (decode (s.x sr)) (t.setPc (s.pc + 2))

/-! ### Whole-machine rules -/

/-- 10_state.md R21: a register reads what was last written to it and the others keep theirs; an instruction changes no
general register but the ones R21 lists for it. -/
def Obligations.RegistersChangeOnlyAsListed : Prop :=
  (∀ (s : State) (r q : Reg) (v : Word), (s.setReg r v).x q = if q = r then v else s.x q) ∧
  ∀ (i : Instr) (s t : State), exec i s = .next t → KeepsRegsBut (writesRegs i) s t

/-- 10_state.md R21: an instruction does not depend on a register R21 does not list as read. One it writes may hold any value
before: the outcome is the same. One it does not write passes through untouched; so does R0 in a GETC or IN that has no word
to come, where the write is still to be made (R199; log 6). -/
def Obligations.UnreadRegistersDoNotMatter : Prop :=
  ∀ (i : Instr) (r : Reg) (v : Word) (s : State), r ∉ readsRegs i →
    (r ∉ writesRegs i → exec i (s.setReg r v) = mapNext (fun t => t.setReg r v) (exec i s)) ∧
    (r ∈ writesRegs i → (ReadsChar i → r = .r0 → s.input ≠ []) → exec i (s.setReg r v) = exec i s) ∧
    (ReadsChar i → r = .r0 → s.input = [] → exec i (s.setReg r v) = mapNext (fun t => t.setReg r v) (exec i s))

/-- 10_state.md R25, whole: `setcc` reads the register's current value and sets exactly one flag by its sign, changing
nothing else; in an instruction that updates COND it sees the value that instruction wrote (GETC and IN have written one
once a word has arrived). -/
def Obligations.FlagUpdateFollowsSign : Prop :=
  (∀ (s : State) (r : Reg), FlagOf (s.x r) (s.setcc r).cond ∧ s.setcc r = s.setCond (s.setcc r).cond) ∧
  (∀ (i : Instr) (r : Reg) (s t : State), flagReg i = some r → (ReadsChar i → s.input ≠ []) → exec i s = .next t →
    FlagOf (t.x r) t.cond ∧ t.cond = (t.setcc r).cond)

/-- 10_state.md R26, whole: the nine update COND, each from its DR or R0; nothing else changes it. GETC and IN do so when
the word arrives. -/
def Obligations.CondChangesOnlyByTheNine : Prop :=
  ∀ (i : Instr) (s t : State), exec i s = .next t →
    (∀ r, flagReg i = some r → (ReadsChar i → s.input ≠ []) → FlagOf (t.x r) t.cond) ∧
    (flagReg i = none → t.cond = s.cond)

/-- 10_state.md R23, whole: pc is written by the increment of every step (of a core about to fetch), by BR when its
condition holds, by JMP, JSR and JSRR, and by nothing else; LEA, JSR, JSRR and TRAP copy it into a general register. -/
def Obligations.PcChangesOnlyByControlTransfer : Prop :=
  (∀ (i : Instr) (s t : State), exec i s = .next t → writesPc i = false → t.pc = s.pc) ∧
  (∀ (c : BitVec 3) (off : BitVec 9) (s t : State), exec (.br c off) s = .next t → s.branchTaken c = false → t.pc = s.pc) ∧
  (∀ s t : State, s.Ready → step s = .next t → writesPc (decode s.fetch.1) = false → t.pc = s.pc + 1) ∧
  (∀ (off : BitVec 11) (s t : State), exec (.jsr off) s = .next t → t.x .r7 = s.pc) ∧
  (∀ (b : Reg) (s t : State), exec (.jsrr b) s = .next t → t.x .r7 = s.pc) ∧
  (∀ (v : Byte) (s t : State), exec (.trap v) s = .next t → t.x .r7 = s.pc) ∧
  (∀ (dr : Reg) (s t : State), exec (.lea dr 0) s = .next t → t.x dr = s.pc)

/-- 10_state.md R28, 20_memory.md R43, R58: no instruction but ST, STI, STR changes a cell other than the two keyboard
cells, and those two only by a poll. -/
def Obligations.OnlyStoresWriteOrdinaryCells : Prop :=
  ∀ (i : Instr) (s t : State), exec i s = .next t → ¬ Stores i →
    (∀ a, a ≠ 0xFE00 → a ≠ 0xFE02 → t.memCell a = s.memCell a) ∧
    ((t.memCell 0xFE00 = s.memCell 0xFE00 ∧ t.memCell 0xFE02 = s.memCell 0xFE02) ∨
      (t.memCell 0xFE00 = 0x0000 ∧ t.memCell 0xFE02 = s.memCell 0xFE02) ∨
      (t.memCell 0xFE00 = 0x8000 ∧ s.pendingWords.head? = some (t.memCell 0xFE02)))

/-- 00_scope.md R13, whole: `WriteChar` appends its byte, and no step reads the output back or changes what is in it. -/
def Obligations.OutputIsAppendOnlyAndNeverRead : Prop :=
  (∀ (s : State) (b : Byte), (s.writeChar b).output = s.output ++ [.char b]) ∧
  ∀ (s : State) (o : List ConsoleEvent),
    step { s with output := o ++ s.output } = mapNext (fun t => { t with output := o ++ t.output }) (step s)

/-- 00_scope.md R12, 20_memory.md R48: words are consumed in the order the host delivers them, each once and at most one a
step. -/
def Obligations.InputIsConsumedInOrder : Prop :=
  ∀ s t : State, step s = .next t →
    t.pendingWords = s.pendingWords ∨ ∃ c, s.pendingWords = c :: t.pendingWords

/-! ### Memory and the keyboard -/

/-- 20_memory.md R43, whole: a write is a pure store at any address; one to KBSR or KBDR touches neither the keyboard nor
the host, and the next `MemRead` of KBSR overwrites KBSR, and KBDR too when a key is pending. -/
def Obligations.WriteIsPureStore : Prop :=
  (∀ (s : State) (a v : Word), (s.memWrite a v).memCell a = v ∧ KeepsMemBut a s (s.memWrite a v) ∧
    KeepsRegsBut [] s (s.memWrite a v) ∧ (s.memWrite a v).pc = s.pc ∧ (s.memWrite a v).cond = s.cond ∧
    KeepsConsole s (s.memWrite a v) ∧ KeepsControl s (s.memWrite a v)) ∧
  (∀ (s : State) (v : Word),
    ((s.memWrite 0xFE00 v).memRead 0xFE00).2.memCell 0xFE00 = (s.memRead 0xFE00).2.memCell 0xFE00) ∧
  (∀ (s : State) (v c : Word) (rest : List InputWord), KeyReady s c rest →
    ((s.memWrite 0xFE02 v).memRead 0xFE00).2.memCell 0xFE02 = c)

/-- 20_memory.md R42 with D8 to D10 (log 16, log 17): what a polling read returns and all it changes. -/
def Obligations.PollingReadDoesAsStated : Prop :=
  ∀ (s : State) (a : Word), ReadsAs a s (s.memRead a).1 ∧ PolledAt a s (s.memRead a).2 ∧
    KeepsRegsBut [] s (s.memRead a).2 ∧ (s.memRead a).2.pc = s.pc ∧ (s.memRead a).2.cond = s.cond ∧
    (s.memRead a).2.output = s.output ∧ KeepsControl s (s.memRead a).2

/-- 20_memory.md R48: of two reads of KBSR in a row with one key pending the first returns 0x8000 and puts the key in KBDR,
the second returns 0x0000 and leaves it there; with a second key ready the second overwrites KBDR and the first is lost. -/
def Obligations.EachStatusReadIsItsOwnPoll : Prop :=
  ∀ (s : State) (c : Word) (rest : List InputWord), KeyReady s c rest →
    let first := s.memRead 0xFE00
    let second := first.2.memRead 0xFE00
    first.1 = 0x8000 ∧ first.2.memCell 0xFE02 = c ∧
    (NoKeyReady first.2 → second.1 = 0x0000 ∧ second.2.memCell 0xFE02 = c) ∧
    (∀ d more, rest = ⟨0, d⟩ :: more → second.1 = 0x8000 ∧ second.2.memCell 0xFE02 = d ∧ second.2.input = more)

/-- The canonical form is canonical: two memories in it that read alike are the same data (log 2). -/
def Obligations.CanonicalMemoriesThatReadAlikeAreEqual : Prop :=
  ∀ m n : Memory, m.wf → n.wf → (∀ a, m.get a = n.get a) → m = n

/-! ### ADD, AND, NOT -/

/-- 41_alu.md R110, R9: ADD, register form: the sum modulo 2^16, its flag, nothing else. -/
def Obligations.AddRegisterAddsModulo : Prop :=
  ∀ (dr sr1 sr2 : Reg) (s : State), ∃ t, exec (.addReg dr sr1 sr2) s = .next t ∧
    (t.x dr).toNat = ((s.x sr1).toNat + (s.x sr2).toNat) % 65536 ∧ FlagOf (t.x dr) t.cond ∧ OnlyResult dr s t

/-- 41_alu.md R111, R9: ADD, immediate form, with imm5 as the signed number −16 to 15. -/
def Obligations.AddImmediateAddsSigned : Prop :=
  ∀ (dr sr1 : Reg) (imm : BitVec 5) (s : State), ∃ t, exec (.addImm dr sr1 imm) s = .next t ∧
    ((t.x dr).toNat : Int) = ((s.x sr1).toNat + imm.toInt) % 65536 ∧ FlagOf (t.x dr) t.cond ∧ OnlyResult dr s t

/-- 41_alu.md R111, 90_conflicts.md C8: `ADD DR,SR1,#imm` then `ADD DR,DR,#(−imm mod 32)` leaves in DR the value SR1 had, for
every immediate but −16, where it leaves that value less 32. -/
def Obligations.AddImmediateRoundTrip : Prop :=
  ∀ (dr sr1 : Reg) (imm : BitVec 5) (s : State), ∃ t u, exec (.addImm dr sr1 imm) s = .next t ∧
    exec (.addImm dr dr (-imm)) t = .next u ∧
    (imm ≠ 0b10000 → u.x dr = s.x sr1) ∧ (imm = 0b10000 → u.x dr = s.x sr1 - 32)

/-- 41_alu.md R112: AND, register form, bit by bit. -/
def Obligations.AndRegisterIsBitwise : Prop :=
  ∀ (dr sr1 sr2 : Reg) (s : State), ∃ t, exec (.andReg dr sr1 sr2) s = .next t ∧
    (∀ k, k < 16 → (t.x dr).getLsbD k = ((s.x sr1).getLsbD k && (s.x sr2).getLsbD k)) ∧ FlagOf (t.x dr) t.cond ∧
    OnlyResult dr s t

/-- 41_alu.md R113: AND, immediate form: bits 3:0 against imm5's, bits 15:4 against its sign bit, which is D32 (log 19). -/
def Obligations.AndImmediateIsBitwiseSigned : Prop :=
  ∀ (dr sr1 : Reg) (imm : BitVec 5) (s : State), ∃ t, exec (.andImm dr sr1 imm) s = .next t ∧
    (∀ k, k < 4 → (t.x dr).getLsbD k = ((s.x sr1).getLsbD k && imm.getLsbD k)) ∧
    (∀ k, 4 ≤ k → k < 16 → (t.x dr).getLsbD k = ((s.x sr1).getLsbD k && imm.getLsbD 4)) ∧ FlagOf (t.x dr) t.cond ∧
    OnlyResult dr s t

/-- 41_alu.md R114: NOT, bit by bit. -/
def Obligations.NotIsBitwiseComplement : Prop :=
  ∀ (dr sr : Reg) (s : State), ∃ t, exec (.not dr sr) s = .next t ∧
    (∀ k, k < 16 → (t.x dr).getLsbD k = !(s.x sr).getLsbD k) ∧ FlagOf (t.x dr) t.cond ∧ OnlyResult dr s t

/-! ### BR, JMP, JSR, JSRR -/

/-- 42_control.md R120 with the codes of D5 (log 13): taken exactly when the bit of cond3 for COND's flag is set. -/
def Obligations.BranchTestsOneFlag : Prop :=
  ∀ (c : BitVec 3) (off : BitVec 9) (s : State), ∃ t, exec (.br c off) s = .next t ∧
    (((c.getLsbD 2 ∧ s.cond = .negative) ∨ (c.getLsbD 1 ∧ s.cond = .zero) ∨ (c.getLsbD 0 ∧ s.cond = .positive)) →
      (t.pc.toNat : Int) = (s.pc.toNat + off.toInt) % 65536) ∧
    (¬((c.getLsbD 2 ∧ s.cond = .negative) ∨ (c.getLsbD 1 ∧ s.cond = .zero) ∨ (c.getLsbD 0 ∧ s.cond = .positive)) →
      t = s) ∧
    OnlyPcAnd [] s t

/-- 42_control.md R121, R122, R123 with D16 (log 20): the targets and the link of JMP, JSR and JSRR. -/
def Obligations.JumpsAndCallsGoWhereStated : Prop :=
  ∀ s : State,
    (∀ b, ∃ t, exec (.jmp b) s = .next t ∧ t.pc = s.x b ∧ OnlyPcAnd [] s t) ∧
    (∀ off, ∃ t, exec (.jsr off) s = .next t ∧ t.x .r7 = s.pc ∧ (t.pc.toNat : Int) = (s.pc.toNat + off.toInt) % 65536 ∧
      OnlyPcAnd [.r7] s t) ∧
    (∀ b, ∃ t, exec (.jsrr b) s = .next t ∧ t.x .r7 = s.pc ∧ (b ≠ .r7 → t.pc = s.x b) ∧ (b = .r7 → t.pc = s.pc) ∧
      OnlyPcAnd [.r7] s t)

/-- 42_control.md R122: a JSR to A then `JMP R7` at A returns to the instruction after the JSR: two steps of the machine. -/
def Obligations.CallThenReturnComesBack : Prop :=
  ∀ (s : State) (off : BitVec 11), s.Ready → s.pc ≠ 0xFE00 → decode (s.memCell s.pc) = .jsr off →
    (s.pc + 1 + sext off) ≠ 0xFE00 → decode (s.memCell (s.pc + 1 + sext off)) = .jmp .r7 →
    ∃ t u, step s = .next t ∧ step t = .next u ∧ u.pc = s.pc + 1 ∧ u.x .r7 = s.pc + 1 ∧ KeepsRegsBut [.r7] s u ∧
      u.cond = s.cond ∧ KeepsMem s u

/-! ### Loads -/

/-- 43_load.md R130: LD adds the word read to DR; the read polls when its address is 0xFE00. -/
def Obligations.LoadAccumulates : Prop :=
  ∀ (dr : Reg) (off : BitVec 9) (s : State), ∃ (v : Word) (t : State), exec (.ld dr off) s = .next t ∧
    ReadsAs (s.pcRel off) s v ∧ (t.x dr).toNat = ((s.x dr).toNat + v.toNat) % 65536 ∧ FlagOf (t.x dr) t.cond ∧
    PolledAt (s.pcRel off) s t ∧ OnlyLoaded dr s t

/-- 43_load.md R131: LDI replaces DR by the word at the pointer; both reads poll, the pointer's first. -/
def Obligations.LoadIndirectFollowsPointer : Prop :=
  ∀ (dr : Reg) (off : BitVec 9) (s : State), ∃ (ptr : Word) (m t : State), exec (.ldi dr off) s = .next t ∧
    ReadsAs (s.pcRel off) s ptr ∧ PolledAt (s.pcRel off) s m ∧ ReadsAs ptr m (t.x dr) ∧ PolledAt ptr m t ∧
    FlagOf (t.x dr) t.cond ∧ OnlyLoaded dr s t

/-- 43_load.md R132: LDR replaces DR by the word at base plus offset. -/
def Obligations.LoadBaseOffsetReplaces : Prop :=
  ∀ (dr b : Reg) (off : BitVec 6) (s : State), ∃ t, exec (.ldr dr b off) s = .next t ∧
    ReadsAs (s.baseOff b off) s (t.x dr) ∧ PolledAt (s.baseOff b off) s t ∧ FlagOf (t.x dr) t.cond ∧ OnlyLoaded dr s t

/-- 43_load.md R133: LEA gives the address, reads no memory and sets COND. -/
def Obligations.LeaGivesAddressAndFlag : Prop :=
  ∀ (dr : Reg) (off : BitVec 9) (s : State), ∃ t, exec (.lea dr off) s = .next t ∧
    ((t.x dr).toNat : Int) = (s.pc.toNat + off.toInt) % 65536 ∧ FlagOf (t.x dr) t.cond ∧ OnlyResult dr s t

/-- 43_load.md R134: the addresses the PC-relative and the base plus offset forms compute. -/
def Obligations.EffectiveAddressesAreModular : Prop :=
  (∀ (s : State) (off : BitVec 9), ((s.pcRel off).toNat : Int) = (s.pc.toNat + off.toInt) % 65536) ∧
  (∀ (s : State) (off : BitVec 11), ((s.pcRel off).toNat : Int) = (s.pc.toNat + off.toInt) % 65536) ∧
  (∀ (s : State) (b : Reg) (off : BitVec 6), ((s.baseOff b off).toNat : Int) = ((s.x b).toNat + off.toInt) % 65536)

/-! ### Stores -/

/-- 44_store.md R140, R142: ST and STR store SR at their effective address, 0xFE00 and 0xFE02 like any other. -/
def Obligations.StoresWriteOneCell : Prop :=
  (∀ (sr : Reg) (off : BitVec 9) (s : State), ∃ t, exec (.st sr off) s = .next t ∧
    t.memCell (s.pcRel off) = s.x sr ∧ KeepsMemBut (s.pcRel off) s t ∧ t.input = s.input ∧ OnlyMemAndInput s t) ∧
  (∀ (sr b : Reg) (off : BitVec 6) (s : State), ∃ t, exec (.str sr b off) s = .next t ∧
    t.memCell (s.baseOff b off) = s.x sr ∧ KeepsMemBut (s.baseOff b off) s t ∧ t.input = s.input ∧ OnlyMemAndInput s t)

/-- 44_store.md R141: STI reads its pointer with a polling read, then stores SR there; the store never polls. -/
def Obligations.StoreIndirectFollowsPointer : Prop :=
  ∀ (sr : Reg) (off : BitVec 9) (s : State), ∃ (ptr : Word) (m t : State), exec (.sti sr off) s = .next t ∧
    ReadsAs (s.pcRel off) s ptr ∧ PolledAt (s.pcRel off) s m ∧ t.memCell ptr = s.x sr ∧ KeepsMemBut ptr m t ∧
    t.input = m.input ∧ OnlyMemAndInput s t

/-! ### TRAP -/

/-- 45_trap.md R158, D7 (log 15): a vector other than 0x20 to 0x25 writes the link and does nothing more. -/
def Obligations.UnknownTrapOnlyLinks : Prop :=
  ∀ (v : Byte) (s : State), v.toNat < 0x20 ∨ 0x25 < v.toNat → ∃ t, exec (.trap v) s = .next t ∧
    t.x .r7 = s.pc ∧ t.pc = s.pc ∧ OnlyPcAnd [.r7] s t

/-- 45_trap.md R152, 60_exceptions.md R199: GETC takes the oldest word into R0 and sets COND; with none to come it waits, the
link written and nothing else done (log 6). -/
def Obligations.GetcTakesOneWordOrWaits : Prop :=
  ∀ s : State,
    (∀ k rest, s.input = k :: rest → ∃ t, exec (.trap 0x20) s = .next t ∧ t.x .r0 = k.word ∧ FlagOf k.word t.cond ∧
      t.x .r7 = s.pc ∧ KeepsRegsBut [.r0, .r7] s t ∧ t.pc = s.pc ∧ KeepsMem s t ∧ t.input = rest ∧ t.output = s.output ∧
      t.run = s.run ∧ t.wait = none ∧ t.images = s.images) ∧
    (s.input = [] → ∃ t, exec (.trap 0x20) s = .next t ∧ t.wait = some .getc ∧ t.x .r7 = s.pc ∧ KeepsRegsBut [.r7] s t ∧
      t.pc = s.pc ∧ t.cond = s.cond ∧ KeepsMem s t ∧ KeepsConsole s t ∧ t.run = s.run ∧ t.images = s.images)

/-- 45_trap.md R153: OUT writes the low byte of R0 and flushes. -/
def Obligations.OutWritesLowByte : Prop :=
  ∀ s : State, ∃ t, exec (.trap 0x21) s = .next t ∧
    (∃ b : Byte, b.toNat = (s.x .r0).toNat % 256 ∧ t.output = s.output ++ [.char b, .flush]) ∧
    t.x .r7 = s.pc ∧ KeepsRegsBut [.r7] s t ∧ t.pc = s.pc ∧ t.cond = s.cond ∧ KeepsMem s t ∧ t.input = s.input ∧
    KeepsControl s t

/-- 45_trap.md R154, R156 with D12, D13 (log 18): PUTS writes the low byte of each cell of the string at R0, PUTSP the low
byte and then the high byte if not zero; then a flush. Neither polls. -/
def Obligations.StringTrapsWriteTheString : Prop :=
  ∀ (s : State) (ws : List Word), StringCells s (s.x .r0) ws →
    (∃ t, exec (.trap 0x22) s = .next t ∧
      t.output = s.output ++ ws.map (fun w => .char (w.setWidth 8)) ++ [.flush] ∧
      t.x .r7 = s.pc ∧ KeepsRegsBut [.r7] s t ∧ t.pc = s.pc ∧ t.cond = s.cond ∧ KeepsMem s t ∧ t.input = s.input ∧
      KeepsControl s t) ∧
    (∃ t, exec (.trap 0x24) s = .next t ∧
      t.output = s.output ++ ws.flatMap (fun w => .char (w.setWidth 8) ::
        if w.toNat / 256 = 0 then [] else [.char ((w >>> 8).setWidth 8)]) ++ [.flush] ∧
      t.x .r7 = s.pc ∧ KeepsRegsBut [.r7] s t ∧ t.pc = s.pc ∧ t.cond = s.cond ∧ KeepsMem s t ∧ t.input = s.input ∧
      KeepsControl s t)

/-- 45_trap.md R154, R156, R103: PUTS and PUTSP answer a next state wherever some cell of memory is zero, the string at R0
being what the scan finds; where no cell of the whole memory is, the model answers the fault `stringNeverEnds` (log 9). -/
def Obligations.StringTrapsEndUnlessNoZeroCell : Prop :=
  ∀ s : State,
    ((∃ a, s.memCell a = 0x0000) →
      (∃ ws, StringCells s (s.x .r0) ws ∧ s.stringAt (s.x .r0) = some ws) ∧
      (∃ t, exec (.trap 0x22) s = .next t) ∧ ∃ t, exec (.trap 0x24) s = .next t) ∧
    ((∀ a, s.memCell a ≠ 0x0000) → exec (.trap 0x22) s = .fault .stringNeverEnds ∧ exec (.trap 0x24) s = .fault .stringNeverEnds)

/-- 45_trap.md R155 with D15 (log 26), 60_exceptions.md R199: IN writes the prompt, takes the oldest word, echoes its low byte,
flushes, and sets R0 and COND; with no word to come it waits, the link and the prompt written. -/
def Obligations.InPromptsReadsAndEchoes : Prop :=
  ∀ s : State,
    (∀ k rest, s.input = k :: rest → ∃ t, exec (.trap 0x23) s = .next t ∧
      t.output = s.output ++ Config.inPrompt.map .char ++ [.char (k.word.setWidth 8), .flush] ∧
      t.x .r0 = k.word ∧ FlagOf k.word t.cond ∧ t.x .r7 = s.pc ∧ KeepsRegsBut [.r0, .r7] s t ∧ t.pc = s.pc ∧ KeepsMem s t ∧
      t.input = rest ∧ t.run = s.run ∧ t.wait = none ∧ t.images = s.images) ∧
    (s.input = [] → ∃ t, exec (.trap 0x23) s = .next t ∧ t.wait = some .inChar ∧
      t.output = s.output ++ Config.inPrompt.map .char ∧ t.x .r7 = s.pc ∧ KeepsRegsBut [.r7] s t ∧ t.pc = s.pc ∧
      t.cond = s.cond ∧ KeepsMem s t ∧ t.input = [] ∧ t.run = s.run ∧ t.images = s.images)

/-- 60_exceptions.md R199: only the arrival of a word ends a wait; a step with none leaves the state as it is, and when the
host has sent one the service is finished with it: R0 and COND set, IN's echo and flush written, the wait over. -/
def Obligations.OnlyAWordEndsAWait : Prop :=
  ∀ (s : State) (p : WaitPoint), s.run = .running → s.images = [] → s.wait = some p →
    (s.input = [] → step s = .next s) ∧
    (s.input = [] → ∀ (n : Nat) (c : Word), ∃ t, step (s.hostSends n c) = .next t ∧ t.wait = none ∧ t.x .r0 = c ∧
      FlagOf c t.cond ∧ KeepsRegsBut [.r0] s t ∧ t.pc = s.pc ∧ KeepsMem s t ∧ t.input = [] ∧ t.run = .running ∧
      t.images = s.images ∧
      t.output = s.output ++ (if p = .inChar then [.char (c.setWidth 8), .flush] else []))

/-- 45_trap.md R157: HALT links, writes the notice, flushes and enters HALTED; everything else is as before. -/
def Obligations.HaltWritesNoticeAndHalts : Prop :=
  ∀ s : State, ∃ t, exec (.trap 0x25) s = .next t ∧ t.run = .halted ∧
    t.output = s.output ++ Config.haltNotice.map .char ++ [.flush] ∧ t.x .r7 = s.pc ∧ KeepsRegsBut [.r7] s t ∧
    t.pc = s.pc ∧ t.cond = s.cond ∧ KeepsMem s t ∧ t.input = s.input ∧ t.wait = s.wait ∧ t.images = s.images

/-- 45_trap.md R151, the columns 'writes' and 'console' for every vector (the column 'reads' is
`UnreadRegistersDoNotMatter`). All vectors: memory, pc and R1 to R6 stay and R7 is the link. GETC and IN take one word into
R0 and COND, or wait for it (log 6); IN writes prompt, echo and flush (D15; log 26); OUT one byte, PUTS and PUTSP the
string's bytes, HALT the notice, each with a flush; HALT alone writes run; the other vectors nothing (D7; log 15). -/
def Obligations.TrapTableHolds : Prop :=
  ∀ (v : Byte) (s t : State), exec (.trap v) s = .next t →
    (KeepsMem s t ∧ t.pc = s.pc ∧ t.x .r7 = s.pc ∧ ∀ r, r ≠ .r0 → r ≠ .r7 → t.x r = s.x r) ∧
    (v = 0x20 ∨ v = 0x23 →
      (∀ k rest, s.input = k :: rest → t.x .r0 = k.word ∧ FlagOf k.word t.cond ∧ t.input = rest ∧ t.wait = none) ∧
      (s.input = [] → t.x .r0 = s.x .r0 ∧ t.cond = s.cond ∧ t.input = [] ∧
        t.wait = some (if v = 0x20 then .getc else .inChar))) ∧
    (v ≠ 0x20 → v ≠ 0x23 → t.x .r0 = s.x .r0 ∧ t.cond = s.cond ∧ t.input = s.input ∧ t.wait = s.wait) ∧
    (v = 0x20 → t.output = s.output) ∧
    (v = 0x21 → ∃ b : Byte, b.toNat = (s.x .r0).toNat % 256 ∧ t.output = s.output ++ [.char b, .flush]) ∧
    (v = 0x22 → ∃ ws, StringCells s (s.x .r0) ws ∧
      t.output = s.output ++ ws.map (fun w => .char (w.setWidth 8)) ++ [.flush]) ∧
    (v = 0x23 → t.output = s.output ++ Config.inPrompt.map .char ++
      match s.input with
      | k :: _ => [.char (k.word.setWidth 8), .flush]
      | [] => []) ∧
    (v = 0x24 → ∃ ws, StringCells s (s.x .r0) ws ∧
      t.output = s.output ++ ws.flatMap (fun w => .char (w.setWidth 8) ::
        if w.toNat / 256 = 0 then [] else [.char ((w >>> 8).setWidth 8)]) ++ [.flush]) ∧
    (v = 0x25 → t.output = s.output ++ Config.haltNotice.map .char ++ [.flush] ∧ t.run = .halted) ∧
    (v.toNat < 0x20 ∨ 0x25 < v.toNat → t.output = s.output) ∧
    (v ≠ 0x25 → t.run = s.run)

/-! ### RTI and RES -/

/-- 46_reserved.md R170, R171, 60_exceptions.md R190 (D2; log 8): RTI and RES take the abort, run becomes ABORTED with the
cause, and nothing else changes. -/
def Obligations.ReservedOpcodesAbort : Prop :=
  ∀ s : State,
    (∃ t, exec .rti s = .next t ∧ t.run = .aborted .rti ∧ KeepsRegsBut [] s t ∧ t.pc = s.pc ∧ t.cond = s.cond ∧
      KeepsMem s t ∧ KeepsConsole s t ∧ t.wait = s.wait ∧ t.images = s.images) ∧
    (∃ t, exec .res s = .next t ∧ t.run = .aborted .res ∧ KeepsRegsBut [] s t ∧ t.pc = s.pc ∧ t.cond = s.cond ∧
      KeepsMem s t ∧ KeepsConsole s t ∧ t.wait = s.wait ∧ t.images = s.images)

/-! ### The loader -/

/-- 47_image_loader.md R176 to R180 with D18, D20 (log 23): cell a takes word a − origin of the image when it lies among the
K words loaded, and is untouched otherwise; a stream with no complete origin loads nothing. -/
def Obligations.ImageLandsAtItsOrigin : Prop :=
  (∀ (m : Memory) (bytes : List Byte) (a : Word), 2 ≤ bytes.length →
    ((imageOrigin bytes ≤ a.toNat ∧ a.toNat < imageOrigin bytes + imageWords bytes) →
      ((m.loadImage bytes).get a).toNat = imageWord bytes (a.toNat - imageOrigin bytes)) ∧
    (¬(imageOrigin bytes ≤ a.toNat ∧ a.toNat < imageOrigin bytes + imageWords bytes) →
      (m.loadImage bytes).get a = m.get a)) ∧
  (∀ (m : Memory) (bytes : List Byte), bytes.length < 2 → m.loadImage bytes = m)

/-- 47_image_loader.md R184, whole: the document's image has origin 0x3000 and one word; it puts 0x1020, which is
`ADD R0,R0,#0`, in cell 0x3000 and changes no other cell; loading an image twice gives the same memory. -/
def Obligations.DocumentImageLoads : Prop :=
  ∀ m : Memory,
    imageOrigin [0x30, 0x00, 0x10, 0x20] = 0x3000 ∧ imageWords [0x30, 0x00, 0x10, 0x20] = 1 ∧
    (m.loadImage [0x30, 0x00, 0x10, 0x20]).get 0x3000 = 0x1020 ∧
    (∀ a, a ≠ 0x3000 → (m.loadImage [0x30, 0x00, 0x10, 0x20]).get a = m.get a) ∧
    decode 0x1020 = .addImm .r0 .r0 0 ∧
    ∀ bytes : List Byte, ∀ a, ((m.loadImage bytes).loadImage bytes).get a = (m.loadImage bytes).get a

/-- 47_image_loader.md R182, in the loader's steps of this model (log 22): loading writes memory only, whatever the bytes are,
and no cell the image does not cover; the loader does not run once the core has started. -/
def Obligations.LoaderWritesNothingButItsCells : Prop :=
  (∀ (s : State) (bytes : List Byte) (rest : List Image), s.run = .running → s.images = .stream bytes :: rest →
    ∃ t, step s = .next t ∧ t.images = rest ∧ t.mem = s.mem.loadImage bytes ∧ KeepsRegsBut [] s t ∧ t.pc = s.pc ∧
      t.cond = s.cond ∧ t.run = s.run ∧ t.wait = s.wait ∧ KeepsConsole s t ∧
      ∀ a : Word, a.toNat < imageOrigin bytes ∨ imageOrigin bytes + imageWords bytes ≤ a.toNat → t.memCell a = s.memCell a) ∧
  (∀ s t : State, s.images = [] → step s = .next t → t.images = [])

/-- 47_image_loader.md R181, R183, 70_reset_and_hazards.md R210: the images given at reset are loaded in order, one step
each, writing memory only, before the first fetch, from 0x3000; one that cannot be opened stops the run before it. -/
def Obligations.BootLoadsEveryImageFirst : Prop :=
  (∀ streams : List (List Byte), ∃ t, Host.Core.run Sys2Proof.core streams.length (State.boot (streams.map .stream)) = .next t ∧
    t.Ready ∧ t.pc = 0x3000 ∧ (∀ r, t.x r = 0x0000) ∧ t.cond = .zero ∧
    t.mem = streams.foldl Memory.loadImage State.reset.mem) ∧
  (∀ (streams : List (List Byte)) (more : List Image),
    Host.Core.run Sys2Proof.core (streams.length + 1) (State.boot (streams.map .stream ++ .unavailable :: more)) =
      .fault .imageLoadError)
end

