-- ==== Sys2Proof/Laws/Decode.lean ====
section
/-! SUPPORT. The small lemmas of the decoder and the encoder: numbers of registers and opcodes, fields and placed fields. -/

namespace Sys2Proof

@[simp] theorem Reg.ofNum_num (r : Reg) : Reg.ofNum r.num = r := by cases r <;> decide

@[simp] theorem Reg.num_ofNum (b : BitVec 3) : (Reg.ofNum b).num = b := by revert b; decide

@[simp] theorem Opcode.ofNum_opcodeMap (o : Opcode) : Opcode.ofNum (Config.opcodeMap o) = o := by cases o <;> decide

@[simp] theorem Opcode.opcodeMap_ofNum (b : BitVec 4) : Config.opcodeMap (Opcode.ofNum b) = b := by revert b; decide

theorem getLsbD_field (lo len : Nat) (w : Word) (k : Nat) :
    (field lo len w).getLsbD k = (decide (k < len) && w.getLsbD (lo + k)) := by simp [field]

theorem getLsbD_place {n : Nat} (lo : Nat) (v : BitVec n) (k : Nat) :
    (place lo v).getLsbD k = (decide (k < 16) && decide (lo ≤ k) && v.getLsbD (k - lo)) := by
  by_cases hk : k < 16
  · by_cases h : lo ≤ k <;> simp [place, hk, h]
  · simp [place, hk]

theorem getElem_place {n : Nat} (lo : Nat) (v : BitVec n) (k : Nat) (hk : k < 16) :
    (place lo v)[k] = (decide (lo ≤ k) && v.getLsbD (k - lo)) := by
  rw [← BitVec.getLsbD_eq_getElem, getLsbD_place]
  simp [hk]

theorem field_or (lo len : Nat) (v w : Word) : field lo len (v ||| w) = field lo len v ||| field lo len w := by
  apply BitVec.eq_of_getLsbD_eq
  intro k hk
  simp only [BitVec.getLsbD_or, getLsbD_field, hk, decide_true, Bool.true_and]

/-- A field placed where it is read comes back. -/
theorem field_place_same {n : Nat} (lo : Nat) (v : BitVec n) (h : lo + n ≤ 16) : field lo n (place lo v) = v := by
  apply BitVec.eq_of_getLsbD_eq
  intro k hk
  have : lo + k < 16 := by omega
  simp only [getLsbD_field, getLsbD_place, hk, this, Nat.le_add_right, Nat.add_sub_cancel_left, decide_true, Bool.true_and]

/-- A field placed elsewhere reads as zero. -/
theorem field_place_apart {n : Nat} (lo len lo' : Nat) (v : BitVec n) (h : lo' + n ≤ lo ∨ lo + len ≤ lo') :
    field lo len (place lo' v) = 0#len := by
  apply BitVec.eq_of_getLsbD_eq
  intro k hk
  by_cases h1 : lo' ≤ lo + k
  · have h2 : n ≤ lo + k - lo' := by omega
    simp [getLsbD_field, getLsbD_place, BitVec.getLsbD_of_ge _ _ h2]
  · simp [getLsbD_field, getLsbD_place, h1]

/-- Two words that agree on the bits of a field have it in common. -/
theorem field_congr {lo len : Nat} {w v : Word} (h : ∀ k, k < len → w.getLsbD (lo + k) = v.getLsbD (lo + k)) :
    field lo len w = field lo len v := by
  apply BitVec.eq_of_getLsbD_eq
  intro k hk
  simp only [getLsbD_field, h k hk]

end Sys2Proof
end

