-- ==== Sys2Proof/Laws/State.lean ====
section
/-! SUPPORT. One lemma per field per update of the state, and the register file's read-after-write law. -/

namespace Sys2Proof.Machine

variable (s : State)

/-! ### The register file -/

/-- A register reads what was last written to it; a write to one leaves the others (R21). -/
theorem RegFile.get_set (f : RegFile) (r q : Reg) (v : Word) : (f.set r v).get q = if q = r then v else f.get q := by
  cases r <;> cases q <;> rfl

theorem State.x_setReg (r q : Reg) (v : Word) : (s.setReg r v).x q = if q = r then v else s.x q :=
  RegFile.get_set s.regs r q v

@[simp] theorem State.x_setReg_same (r : Reg) (v : Word) : (s.setReg r v).x r = v := by simp [State.x_setReg]

@[simp] theorem State.x_setReg_ne (r q : Reg) (v : Word) (h : q ≠ r) : (s.setReg r v).x q = s.x q := by
  simp [State.x_setReg, h]

/-! ### `setReg` -/

@[simp] theorem State.setReg_regs (r : Reg) (v : Word) : (s.setReg r v).regs = s.regs.set r v := rfl
@[simp] theorem State.setReg_pc (r : Reg) (v : Word) : (s.setReg r v).pc = s.pc := rfl
@[simp] theorem State.setReg_cond (r : Reg) (v : Word) : (s.setReg r v).cond = s.cond := rfl
@[simp] theorem State.setReg_run (r : Reg) (v : Word) : (s.setReg r v).run = s.run := rfl
@[simp] theorem State.setReg_mem (r : Reg) (v : Word) : (s.setReg r v).mem = s.mem := rfl
@[simp] theorem State.setReg_input (r : Reg) (v : Word) : (s.setReg r v).input = s.input := rfl
@[simp] theorem State.setReg_output (r : Reg) (v : Word) : (s.setReg r v).output = s.output := rfl
@[simp] theorem State.setReg_wait (r : Reg) (v : Word) : (s.setReg r v).wait = s.wait := rfl
@[simp] theorem State.setReg_images (r : Reg) (v : Word) : (s.setReg r v).images = s.images := rfl
@[simp] theorem State.setReg_memCell (r : Reg) (v : Word) (m : Word) : (s.setReg r v).memCell m = s.memCell m := rfl

/-! ### `setPc` -/

@[simp] theorem State.setPc_regs (v : Word) : (s.setPc v).regs = s.regs := rfl
@[simp] theorem State.setPc_pc (v : Word) : (s.setPc v).pc = v := rfl
@[simp] theorem State.setPc_cond (v : Word) : (s.setPc v).cond = s.cond := rfl
@[simp] theorem State.setPc_run (v : Word) : (s.setPc v).run = s.run := rfl
@[simp] theorem State.setPc_mem (v : Word) : (s.setPc v).mem = s.mem := rfl
@[simp] theorem State.setPc_input (v : Word) : (s.setPc v).input = s.input := rfl
@[simp] theorem State.setPc_output (v : Word) : (s.setPc v).output = s.output := rfl
@[simp] theorem State.setPc_wait (v : Word) : (s.setPc v).wait = s.wait := rfl
@[simp] theorem State.setPc_images (v : Word) : (s.setPc v).images = s.images := rfl
@[simp] theorem State.setPc_x (v : Word) (q : Reg) : (s.setPc v).x q = s.x q := rfl
@[simp] theorem State.setPc_memCell (v : Word) (m : Word) : (s.setPc v).memCell m = s.memCell m := rfl

/-! ### `setCond` -/

@[simp] theorem State.setCond_regs (c : Cond) : (s.setCond c).regs = s.regs := rfl
@[simp] theorem State.setCond_pc (c : Cond) : (s.setCond c).pc = s.pc := rfl
@[simp] theorem State.setCond_cond (c : Cond) : (s.setCond c).cond = c := rfl
@[simp] theorem State.setCond_run (c : Cond) : (s.setCond c).run = s.run := rfl
@[simp] theorem State.setCond_mem (c : Cond) : (s.setCond c).mem = s.mem := rfl
@[simp] theorem State.setCond_input (c : Cond) : (s.setCond c).input = s.input := rfl
@[simp] theorem State.setCond_output (c : Cond) : (s.setCond c).output = s.output := rfl
@[simp] theorem State.setCond_wait (c : Cond) : (s.setCond c).wait = s.wait := rfl
@[simp] theorem State.setCond_images (c : Cond) : (s.setCond c).images = s.images := rfl
@[simp] theorem State.setCond_x (c : Cond) (q : Reg) : (s.setCond c).x q = s.x q := rfl
@[simp] theorem State.setCond_memCell (c : Cond) (m : Word) : (s.setCond c).memCell m = s.memCell m := rfl

/-! ### `setRun` -/

@[simp] theorem State.setRun_regs (r : RunState) : (s.setRun r).regs = s.regs := rfl
@[simp] theorem State.setRun_pc (r : RunState) : (s.setRun r).pc = s.pc := rfl
@[simp] theorem State.setRun_cond (r : RunState) : (s.setRun r).cond = s.cond := rfl
@[simp] theorem State.setRun_run (r : RunState) : (s.setRun r).run = r := rfl
@[simp] theorem State.setRun_mem (r : RunState) : (s.setRun r).mem = s.mem := rfl
@[simp] theorem State.setRun_input (r : RunState) : (s.setRun r).input = s.input := rfl
@[simp] theorem State.setRun_output (r : RunState) : (s.setRun r).output = s.output := rfl
@[simp] theorem State.setRun_wait (r : RunState) : (s.setRun r).wait = s.wait := rfl
@[simp] theorem State.setRun_images (r : RunState) : (s.setRun r).images = s.images := rfl
@[simp] theorem State.setRun_x (r : RunState) (q : Reg) : (s.setRun r).x q = s.x q := rfl
@[simp] theorem State.setRun_memCell (r : RunState) (m : Word) : (s.setRun r).memCell m = s.memCell m := rfl

/-! ### `setWait` -/

@[simp] theorem State.setWait_regs (w : Option WaitPoint) : (s.setWait w).regs = s.regs := rfl
@[simp] theorem State.setWait_pc (w : Option WaitPoint) : (s.setWait w).pc = s.pc := rfl
@[simp] theorem State.setWait_cond (w : Option WaitPoint) : (s.setWait w).cond = s.cond := rfl
@[simp] theorem State.setWait_run (w : Option WaitPoint) : (s.setWait w).run = s.run := rfl
@[simp] theorem State.setWait_mem (w : Option WaitPoint) : (s.setWait w).mem = s.mem := rfl
@[simp] theorem State.setWait_input (w : Option WaitPoint) : (s.setWait w).input = s.input := rfl
@[simp] theorem State.setWait_output (w : Option WaitPoint) : (s.setWait w).output = s.output := rfl
@[simp] theorem State.setWait_wait (w : Option WaitPoint) : (s.setWait w).wait = w := rfl
@[simp] theorem State.setWait_images (w : Option WaitPoint) : (s.setWait w).images = s.images := rfl
@[simp] theorem State.setWait_x (w : Option WaitPoint) (q : Reg) : (s.setWait w).x q = s.x q := rfl
@[simp] theorem State.setWait_memCell (w : Option WaitPoint) (m : Word) : (s.setWait w).memCell m = s.memCell m := rfl

/-! ### `setInput` -/

@[simp] theorem State.setInput_regs (i : List InputWord) : (s.setInput i).regs = s.regs := rfl
@[simp] theorem State.setInput_pc (i : List InputWord) : (s.setInput i).pc = s.pc := rfl
@[simp] theorem State.setInput_cond (i : List InputWord) : (s.setInput i).cond = s.cond := rfl
@[simp] theorem State.setInput_run (i : List InputWord) : (s.setInput i).run = s.run := rfl
@[simp] theorem State.setInput_mem (i : List InputWord) : (s.setInput i).mem = s.mem := rfl
@[simp] theorem State.setInput_input (i : List InputWord) : (s.setInput i).input = i := rfl
@[simp] theorem State.setInput_output (i : List InputWord) : (s.setInput i).output = s.output := rfl
@[simp] theorem State.setInput_wait (i : List InputWord) : (s.setInput i).wait = s.wait := rfl
@[simp] theorem State.setInput_images (i : List InputWord) : (s.setInput i).images = s.images := rfl
@[simp] theorem State.setInput_x (i : List InputWord) (q : Reg) : (s.setInput i).x q = s.x q := rfl
@[simp] theorem State.setInput_memCell (i : List InputWord) (m : Word) : (s.setInput i).memCell m = s.memCell m := rfl

/-! ### `setImages` -/

@[simp] theorem State.setImages_regs (l : List Image) : (s.setImages l).regs = s.regs := rfl
@[simp] theorem State.setImages_pc (l : List Image) : (s.setImages l).pc = s.pc := rfl
@[simp] theorem State.setImages_cond (l : List Image) : (s.setImages l).cond = s.cond := rfl
@[simp] theorem State.setImages_run (l : List Image) : (s.setImages l).run = s.run := rfl
@[simp] theorem State.setImages_mem (l : List Image) : (s.setImages l).mem = s.mem := rfl
@[simp] theorem State.setImages_input (l : List Image) : (s.setImages l).input = s.input := rfl
@[simp] theorem State.setImages_output (l : List Image) : (s.setImages l).output = s.output := rfl
@[simp] theorem State.setImages_wait (l : List Image) : (s.setImages l).wait = s.wait := rfl
@[simp] theorem State.setImages_images (l : List Image) : (s.setImages l).images = l := rfl
@[simp] theorem State.setImages_x (l : List Image) (q : Reg) : (s.setImages l).x q = s.x q := rfl
@[simp] theorem State.setImages_memCell (l : List Image) (m : Word) : (s.setImages l).memCell m = s.memCell m := rfl

/-! ### `memWrite` -/

@[simp] theorem State.memWrite_regs (a v : Word) : (s.memWrite a v).regs = s.regs := rfl
@[simp] theorem State.memWrite_pc (a v : Word) : (s.memWrite a v).pc = s.pc := rfl
@[simp] theorem State.memWrite_cond (a v : Word) : (s.memWrite a v).cond = s.cond := rfl
@[simp] theorem State.memWrite_run (a v : Word) : (s.memWrite a v).run = s.run := rfl
@[simp] theorem State.memWrite_mem (a v : Word) : (s.memWrite a v).mem = s.mem.set a v := rfl
@[simp] theorem State.memWrite_input (a v : Word) : (s.memWrite a v).input = s.input := rfl
@[simp] theorem State.memWrite_output (a v : Word) : (s.memWrite a v).output = s.output := rfl
@[simp] theorem State.memWrite_wait (a v : Word) : (s.memWrite a v).wait = s.wait := rfl
@[simp] theorem State.memWrite_images (a v : Word) : (s.memWrite a v).images = s.images := rfl
@[simp] theorem State.memWrite_x (a v : Word) (q : Reg) : (s.memWrite a v).x q = s.x q := rfl

/-! ### `emit` -/

@[simp] theorem State.emit_regs (es : List ConsoleEvent) : (s.emit es).regs = s.regs := rfl
@[simp] theorem State.emit_pc (es : List ConsoleEvent) : (s.emit es).pc = s.pc := rfl
@[simp] theorem State.emit_cond (es : List ConsoleEvent) : (s.emit es).cond = s.cond := rfl
@[simp] theorem State.emit_run (es : List ConsoleEvent) : (s.emit es).run = s.run := rfl
@[simp] theorem State.emit_mem (es : List ConsoleEvent) : (s.emit es).mem = s.mem := rfl
@[simp] theorem State.emit_input (es : List ConsoleEvent) : (s.emit es).input = s.input := rfl
@[simp] theorem State.emit_output (es : List ConsoleEvent) : (s.emit es).output = s.output ++ es := rfl
@[simp] theorem State.emit_wait (es : List ConsoleEvent) : (s.emit es).wait = s.wait := rfl
@[simp] theorem State.emit_images (es : List ConsoleEvent) : (s.emit es).images = s.images := rfl
@[simp] theorem State.emit_x (es : List ConsoleEvent) (q : Reg) : (s.emit es).x q = s.x q := rfl
@[simp] theorem State.emit_memCell (es : List ConsoleEvent) (m : Word) : (s.emit es).memCell m = s.memCell m := rfl

/-! ### The composed updates, down to the ones above -/

@[simp] theorem State.link_eq : s.link = s.setReg .r7 s.pc := rfl
@[simp] theorem State.abort_eq (c : AbortCause) : s.abort c = s.setRun (.aborted c) := rfl
@[simp] theorem State.writeChar_eq (b : Byte) : s.writeChar b = s.emit [.char b] := rfl
@[simp] theorem State.writeChars_eq (bs : List Byte) : s.writeChars bs = s.emit (bs.map .char) := rfl
@[simp] theorem State.flush_eq : s.flush = s.emit [.flush] := rfl
@[simp] theorem State.setcc_eq (r : Reg) : s.setcc r = s.setCond (condOf (s.x r)) := rfl

/-- `x[DR] <- v; setcc(DR)` sets the flag of the value just written (R25). -/
theorem State.writeResult_eq (r : Reg) (v : Word) : s.writeResult r v = (s.setReg r v).setCond (condOf v) := by
  simp [State.writeResult]

@[simp] theorem State.emit_nil : s.emit [] = s := by simp [State.emit]
@[simp] theorem State.emit_emit (a b : List ConsoleEvent) : (s.emit a).emit b = s.emit (a ++ b) := by simp [State.emit]

/-! ### `writeResult` -/

@[simp] theorem State.writeResult_x_same (r : Reg) (v : Word) : (s.writeResult r v).x r = v := by simp [State.writeResult_eq]
@[simp] theorem State.writeResult_x_ne (r q : Reg) (v : Word) (h : q ≠ r) : (s.writeResult r v).x q = s.x q := by
  simp [State.writeResult_eq, h]
@[simp] theorem State.writeResult_cond (r : Reg) (v : Word) : (s.writeResult r v).cond = condOf v := by simp [State.writeResult_eq]
@[simp] theorem State.writeResult_memCell (r : Reg) (v a : Word) : (s.writeResult r v).memCell a = s.memCell a := rfl
@[simp] theorem State.writeResult_pc (r : Reg) (v : Word) : (s.writeResult r v).pc = s.pc := rfl
@[simp] theorem State.writeResult_run (r : Reg) (v : Word) : (s.writeResult r v).run = s.run := rfl
@[simp] theorem State.writeResult_mem (r : Reg) (v : Word) : (s.writeResult r v).mem = s.mem := rfl
@[simp] theorem State.writeResult_input (r : Reg) (v : Word) : (s.writeResult r v).input = s.input := rfl
@[simp] theorem State.writeResult_output (r : Reg) (v : Word) : (s.writeResult r v).output = s.output := rfl
@[simp] theorem State.writeResult_wait (r : Reg) (v : Word) : (s.writeResult r v).wait = s.wait := rfl
@[simp] theorem State.writeResult_images (r : Reg) (v : Word) : (s.writeResult r v).images = s.images := rfl

end Sys2Proof.Machine
end

