-- ==== Sys2Proof/Laws/Memory.lean ====
section
/-! SUPPORT. The laws of memory: read after write, and every operation keeps the canonical form. -/

namespace Sys2Proof.Machine

/-! ### Lists of cells -/

theorem lookupCell_filter_same (a : Nat) (l : List (Nat × Word)) :
    lookupCell a (l.filter fun c => c.1 != a) = Config.resetCell := by
  induction l with
  | nil => rfl
  | cons c rest ih =>
    by_cases h : c.1 = a
    · simp [h, ih]
    · simp [h, lookupCell, ih]

theorem lookupCell_filter_ne {a b : Nat} (h : b ≠ a) (l : List (Nat × Word)) :
    lookupCell b (l.filter fun c => c.1 != a) = lookupCell b l := by
  induction l with
  | nil => rfl
  | cons c rest ih =>
    by_cases hc : c.1 = a
    · have hb : c.1 ≠ b := by omega
      simp [hc, lookupCell, hc ▸ hb, ih]
    · simp [hc, lookupCell, ih]

/-- Inserting an entry for an address the list does not hold gives it its value and leaves the others. -/
theorem lookupCell_insertCell {a : Nat} (b : Nat) (v : Word) {l : List (Nat × Word)} (h : ∀ c ∈ l, c.1 ≠ a) :
    lookupCell b (insertCell a v l) = if b = a then v else lookupCell b l := by
  induction l with
  | nil => simp [insertCell, lookupCell, eq_comm]
  | cons c rest ih =>
    have hc : c.1 ≠ a := h c (by simp)
    have hr := ih fun d hd => h d (by simp [hd])
    by_cases hlt : a < c.1
    · simp [insertCell, hlt, lookupCell, eq_comm]
    · by_cases hb : c.1 = b
      · have : b ≠ a := by omega
        rw [insertCell, if_neg hlt, lookupCell, if_pos hb, if_neg this, lookupCell, if_pos hb]
      · rw [insertCell, if_neg hlt, lookupCell, if_neg hb, hr, lookupCell, if_neg hb]

theorem mem_insertCell {a : Nat} {v : Word} {l : List (Nat × Word)} {c : Nat × Word} (h : c ∈ insertCell a v l) :
    c = (a, v) ∨ c ∈ l := by
  induction l with
  | nil => exact .inl (by simpa [insertCell] using h)
  | cons d rest ih =>
    by_cases hlt : a < d.1
    · simpa [insertCell, hlt] using h
    · rcases List.mem_cons.mp (by simpa [insertCell, hlt] using h) with h1 | h1
      · simp [h1]
      · rcases ih h1 with h2 | h2
        · exact .inl h2
        · simp [h2]

theorem pairwise_insertCell {a : Nat} {v : Word} {l : List (Nat × Word)} (hne : ∀ c ∈ l, c.1 ≠ a)
    (hs : l.Pairwise fun c d => c.1 < d.1) : (insertCell a v l).Pairwise fun c d => c.1 < d.1 := by
  induction l with
  | nil => simp [insertCell]
  | cons d rest ih =>
    obtain ⟨hd, hrest⟩ := List.pairwise_cons.mp hs
    have hda : d.1 ≠ a := hne d (by simp)
    by_cases hlt : a < d.1
    · simp only [insertCell, hlt, if_true, List.pairwise_cons]
      refine ⟨fun c hc => ?_, hd, hrest⟩
      rcases List.mem_cons.mp hc with rfl | hc
      · exact hlt
      · exact hlt.trans (hd c hc)
    · simp only [insertCell, hlt, if_false, List.pairwise_cons]
      refine ⟨fun c hc => ?_, ih (fun c hc => hne c (by simp [hc])) hrest⟩
      rcases mem_insertCell hc with rfl | hc
      · show d.1 < a
        omega
      · exact hd c hc

/-! ### Memory -/

/-- Read after write, at every address (R43). -/
theorem Memory.get_set (m : Memory) (a v b : Word) : (m.set a v).get b = if b = a then v else m.get b := by
  have hn : (b.toNat = a.toNat) ↔ b = a := BitVec.toNat_inj
  have hf : ∀ c ∈ m.cells.filter (fun c => c.1 != a.toNat), c.1 ≠ a.toNat := fun c hc => by simpa using (List.mem_filter.mp hc).2
  by_cases hv : v = Config.resetCell
  · by_cases hb : b = a
    · subst hb
      simp [Memory.set, Memory.get, hv, lookupCell_filter_same]
    · have : b.toNat ≠ a.toNat := fun h => hb (hn.mp h)
      simp [Memory.set, Memory.get, hv, hb, lookupCell_filter_ne this]
  · by_cases hb : b = a
    · subst hb
      simp [Memory.set, Memory.get, hv, lookupCell_insertCell _ _ hf]
    · have : b.toNat ≠ a.toNat := fun h => hb (hn.mp h)
      simp [Memory.set, Memory.get, hv, hb, lookupCell_insertCell _ _ hf, this, lookupCell_filter_ne this]

/-- Every store keeps the canonical form. -/
theorem Memory.wf_set {m : Memory} (h : m.wf) (a v : Word) : (m.set a v).wf := by
  obtain ⟨hs, hc⟩ := h
  have hsf : (m.cells.filter fun c => c.1 != a.toNat).Pairwise (fun c d => c.1 < d.1) := hs.filter _
  have hcf : ∀ c ∈ m.cells.filter (fun c => c.1 != a.toNat), c.1 < Config.memCells ∧ c.2 ≠ Config.resetCell :=
    fun c hm => hc c (List.mem_filter.mp hm).1
  have hne : ∀ c ∈ m.cells.filter (fun c => c.1 != a.toNat), c.1 ≠ a.toNat := fun c hm => by
    simpa using (List.mem_filter.mp hm).2
  by_cases hv : v = Config.resetCell
  · have hval : (m.set a v).cells = m.cells.filter fun c => c.1 != a.toNat := by simp [Memory.set, hv]
    rw [Memory.wf, hval]
    exact ⟨hsf, hcf⟩
  · have hval : (m.set a v).cells = insertCell a.toNat v (m.cells.filter fun c => c.1 != a.toNat) := by
      simp [Memory.set, hv]
    rw [Memory.wf, hval]
    refine ⟨pairwise_insertCell hne hsf, fun c hm => ?_⟩
    rcases mem_insertCell hm with rfl | hm
    · exact ⟨by simpa [Config.memCells] using a.isLt, hv⟩
    · exact hcf c hm

/-- Reset memory is canonical. -/
theorem reset_mem_wf : State.reset.mem.wf := by decide

theorem Memory.wf_placeWords {m : Memory} (h : m.wf) (a : Word) (ws : List Word) : (m.placeWords a ws).wf := by
  induction ws generalizing m a with
  | nil => exact h
  | cons w ws ih => exact ih (Memory.wf_set h a w) (a + 1)

/-- Loading an image keeps the canonical form. -/
theorem Memory.wf_loadImage {m : Memory} (h : m.wf) (bytes : List Byte) : (m.loadImage bytes).wf := by
  unfold Memory.loadImage
  split
  · exact Memory.wf_placeWords h _ _
  · exact h

/-! ### The state's memory -/

theorem State.memCell_memWrite (s : State) (a v b : Word) : (s.memWrite a v).memCell b = if b = a then v else s.memCell b :=
  Memory.get_set s.mem a v b

@[simp] theorem State.memCell_memWrite_same (s : State) (a v : Word) : (s.memWrite a v).memCell a = v := by
  simp [State.memCell_memWrite]

@[simp] theorem State.memCell_memWrite_ne (s : State) (a v b : Word) (h : b ≠ a) : (s.memWrite a v).memCell b = s.memCell b := by
  simp [State.memCell_memWrite, h]

end Sys2Proof.Machine
end

