-- ==== Sys2Proof/Laws/Ops.lean ====
section
/-! SUPPORT. What each shared operation can do, said once: the keyboard primitives, the polling read, the wait, the
fetch and the three ways a step begins. -/

namespace Sys2Proof.Machine

variable (s : State)

/-! ### The console input -/

theorem State.keyAvailable_iff : s.keyAvailable = true ↔ ∃ c rest, s.input = ⟨0, c⟩ :: rest := by
  unfold State.keyAvailable
  constructor
  · intro h
    split at h
    · exact absurd h (by simp)
    · next k rest hk =>
      obtain ⟨n, c⟩ := k
      obtain rfl : n = 0 := by simpa using h
      exact ⟨c, rest, hk⟩
  · rintro ⟨c, rest, h⟩
    simp [h]

/-- If `KeyAvailable()` answers true a `ReadChar()` made next returns at once (R11). -/
theorem State.readChar_of_keyAvailable (h : s.keyAvailable = true) : ∃ c t, s.readChar = some (c, t) := by
  obtain ⟨c, rest, hi⟩ := (State.keyAvailable_iff s).mp h
  exact ⟨c, s.setInput rest, by simp [State.readChar, hi]⟩

@[simp] theorem State.readChar_nil (h : s.input = []) : s.readChar = none := by simp [State.readChar, h]

@[simp] theorem State.readChar_cons {k : InputWord} {rest : List InputWord} (h : s.input = k :: rest) :
    s.readChar = some (k.word, s.setInput rest) := by simp [State.readChar, h]

/-- A poll in vain changes nothing but how many more polls the oldest word keeps waiting. -/
theorem State.pollMissed_eq : ∃ i, s.pollMissed = s.setInput i ∧ i.map (·.word) = s.input.map (·.word) := by
  unfold State.pollMissed
  split
  · next h => exact ⟨s.input, by simp [State.setInput], rfl⟩
  · next k rest h => exact ⟨_, rfl, by simp [h]⟩

/-! ### The polling read -/

theorem State.poll_key {c : Word} {rest : List InputWord} (h : s.input = ⟨0, c⟩ :: rest) :
    s.poll = ((s.setInput rest).memWrite Config.kbsr Config.kbsrReady).memWrite Config.kbdr c := by
  have hk : s.keyAvailable = true := (State.keyAvailable_iff s).mpr ⟨c, rest, h⟩
  simp [State.poll, hk, State.readChar, h]

theorem State.poll_none (h : s.keyAvailable = false) : s.poll = s.pollMissed.memWrite Config.kbsr Config.kbsrIdle := by
  simp [State.poll, h]

/-- A poll writes memory and the console input and nothing else. -/
theorem State.poll_eq : ∃ m i, s.poll = { s with mem := m, input := i } := by
  by_cases h : s.keyAvailable = true
  · obtain ⟨c, rest, hi⟩ := (State.keyAvailable_iff s).mp h
    exact ⟨_, rest, State.poll_key s hi⟩
  · obtain ⟨i, hi, -⟩ := State.pollMissed_eq s
    exact ⟨_, i, by rw [State.poll_none s (by simpa using h), hi]; rfl⟩

/-- A read of any address but KBSR changes nothing (R42). -/
theorem State.memRead_ne {a : Word} (h : a ≠ Config.kbsr) : s.memRead a = (s.memCell a, s) := by
  simp [State.memRead, h]

theorem State.memRead_key {c : Word} {rest : List InputWord} (h : s.input = ⟨0, c⟩ :: rest) :
    s.memRead Config.kbsr = (Config.kbsrReady,
      ((s.setInput rest).memWrite Config.kbsr Config.kbsrReady).memWrite Config.kbdr c) := by
  have hne : Config.kbsr ≠ Config.kbdr := by decide
  simp [State.memRead, State.poll_key s h, hne]

theorem State.memRead_none (h : s.keyAvailable = false) :
    s.memRead Config.kbsr = (Config.kbsrIdle, s.pollMissed.memWrite Config.kbsr Config.kbsrIdle) := by
  simp [State.memRead, State.poll_none s h]

/-- A polling read writes memory and the console input and nothing else. -/
theorem State.memRead_eq (a : Word) : ∃ m i, (s.memRead a).2 = { s with mem := m, input := i } := by
  by_cases h : a = Config.kbsr
  · obtain ⟨m, i, hp⟩ := State.poll_eq s
    exact ⟨m, i, by simp [State.memRead, h, hp]⟩
  · exact ⟨s.mem, s.input, by simp [State.memRead, h]⟩

@[simp] theorem State.memRead_regs (a : Word) : (s.memRead a).2.regs = s.regs := by
  obtain ⟨m, i, h⟩ := State.memRead_eq s a; rw [h]
@[simp] theorem State.memRead_x (a : Word) (r : Reg) : (s.memRead a).2.x r = s.x r := by
  obtain ⟨m, i, h⟩ := State.memRead_eq s a; rw [h]; rfl
@[simp] theorem State.memRead_pc (a : Word) : (s.memRead a).2.pc = s.pc := by
  obtain ⟨m, i, h⟩ := State.memRead_eq s a; rw [h]
@[simp] theorem State.memRead_cond (a : Word) : (s.memRead a).2.cond = s.cond := by
  obtain ⟨m, i, h⟩ := State.memRead_eq s a; rw [h]
@[simp] theorem State.memRead_run (a : Word) : (s.memRead a).2.run = s.run := by
  obtain ⟨m, i, h⟩ := State.memRead_eq s a; rw [h]
@[simp] theorem State.memRead_output (a : Word) : (s.memRead a).2.output = s.output := by
  obtain ⟨m, i, h⟩ := State.memRead_eq s a; rw [h]
@[simp] theorem State.memRead_wait (a : Word) : (s.memRead a).2.wait = s.wait := by
  obtain ⟨m, i, h⟩ := State.memRead_eq s a; rw [h]
@[simp] theorem State.memRead_images (a : Word) : (s.memRead a).2.images = s.images := by
  obtain ⟨m, i, h⟩ := State.memRead_eq s a; rw [h]

/-- A polling read keeps memory canonical. -/
theorem State.memRead_wf {a : Word} (h : s.mem.wf) : (s.memRead a).2.mem.wf := by
  by_cases ha : a = Config.kbsr
  · subst ha
    by_cases hk : s.keyAvailable = true
    · obtain ⟨c, rest, hi⟩ := (State.keyAvailable_iff s).mp hk
      rw [State.memRead_key s hi]
      exact Memory.wf_set (Memory.wf_set h _ _) _ _
    · obtain ⟨i, hi, -⟩ := State.pollMissed_eq s
      rw [State.memRead_none s (by simpa using hk), hi]
      exact Memory.wf_set h _ _
  · rwa [State.memRead_ne s ha]

/-! ### The wait -/

/-- With no word to come the core stands in the wait and nothing else changes (R199). -/
theorem State.receive_nil (w : WaitPoint) (h : s.input = []) : s.receive w = s.setWait (some w) := by
  simp [State.receive, State.readChar, h]

theorem State.receive_cons (w : WaitPoint) {k : InputWord} {rest : List InputWord} (h : s.input = k :: rest) :
    s.receive w = ((s.setInput rest).setWait none).deliver w k.word := by
  simp [State.receive, State.readChar, h]

/-! ### The fetch -/

@[simp] theorem State.fetch_x (r : Reg) : s.fetch.2.x r = s.x r := by
  obtain ⟨m, i, h⟩ := State.memRead_eq s s.pc
  simp [State.fetch, h]; rfl
@[simp] theorem State.fetch_pc : s.fetch.2.pc = s.pc + 1 := rfl
@[simp] theorem State.fetch_cond : s.fetch.2.cond = s.cond := by simp [State.fetch]
@[simp] theorem State.fetch_run : s.fetch.2.run = s.run := by simp [State.fetch]
@[simp] theorem State.fetch_output : s.fetch.2.output = s.output := by simp [State.fetch]
@[simp] theorem State.fetch_wait : s.fetch.2.wait = s.wait := by simp [State.fetch]
@[simp] theorem State.fetch_images : s.fetch.2.images = s.images := by simp [State.fetch]

/-- A fetch from any address but KBSR reads the cell and moves pc on (R100). -/
theorem State.fetch_ne (h : s.pc ≠ Config.kbsr) : s.fetch = (s.memCell s.pc, s.setPc (s.pc + 1)) := by
  simp [State.fetch, State.memRead_ne s h]

/-! ### How a step begins -/

theorem step_halted (h : s.run = .halted) : step s = .next s := by simp [step, h]

theorem step_aborted {c : AbortCause} (h : s.run = .aborted c) : step s = .fault (.aborted c) := by simp [step, h]

theorem step_loader {img : Image} {rest : List Image} (h : s.run = .running) (hi : s.images = img :: rest) :
    step s = loadNext img rest s := by simp [step, h, hi]

theorem step_waiting {w : WaitPoint} (h : s.run = .running) (hi : s.images = []) (hw : s.wait = some w) :
    step s = .next (s.receive w) := by simp [step, h, hi, hw]

theorem step_ready (h : s.Ready) : step s = runInstr s := by
  obtain ⟨hr, hi, hw⟩ := h
  simp [step, hr, hi, hw]

/-- What a step that runs no instruction can be: HALTED stays; the loader takes an image; a wait tries its `ReadChar`. -/
theorem step_next_of_not_ready {t : State} (hn : ¬ s.Ready) (h : step s = .next t) :
    (s.run = .halted ∧ t = s) ∨
    (∃ b rest, s.run = .running ∧ s.images = .stream b :: rest ∧ t = { s with mem := s.mem.loadImage b, images := rest }) ∨
    (∃ w, s.run = .running ∧ s.images = [] ∧ s.wait = some w ∧ t = s.receive w) := by
  cases hr : s.run with
  | halted =>
    rw [step_halted s hr] at h
    injection h with h
    exact .inl ⟨rfl, h.symm⟩
  | aborted c =>
    rw [step_aborted s hr] at h
    cases h
  | running =>
    cases hi : s.images with
    | cons img rest =>
      rw [step_loader s hr hi] at h
      cases img with
      | stream b =>
        injection h with h
        exact .inr (.inl ⟨b, rest, rfl, rfl, by rw [← h, hr]⟩)
      | unavailable => cases h
    | nil =>
      cases hw : s.wait with
      | none => exact absurd ⟨hr, hi, hw⟩ hn
      | some w =>
        rw [step_waiting s hr hi hw] at h
        injection h with h
        exact .inr (.inr ⟨w, rfl, rfl, rfl, h.symm⟩)

end Sys2Proof.Machine
end

