-- ==== Sys2Proof/Laws/Loader.lean ====
section
/-! SUPPORT. What the loader's operations do, said once: the words of a stream and where placed words lie. -/

namespace Sys2Proof.Machine

theorem wordOfBytes_toNat (hi lo : Byte) : (wordOfBytes hi lo).toNat = hi.toNat * 256 + lo.toNat := by
  unfold wordOfBytes
  have := Nat.two_pow_add_eq_or_of_lt (i := 8) lo.isLt hi.toNat
  rw [BitVec.toNat_append, Nat.shiftLeft_eq, Nat.mul_comm, ← this]

/-- A stream of n bytes has ⌊n / 2⌋ complete words (R177). -/
theorem wordsOfBytes_length (l : List Byte) : (wordsOfBytes l).length = l.length / 2 := by
  induction l using wordsOfBytes.induct with
  | case1 hi lo rest ih =>
    simp [wordsOfBytes, ih]
    omega
  | case2 l h =>
    rcases l with _ | ⟨a, _ | ⟨b, r⟩⟩
    · rfl
    · simp [wordsOfBytes]
    · exact absurd rfl (h a b r)

/-- Word k of a stream is its bytes 2k and 2k + 1, the first the high one (R177). -/
theorem wordsOfBytes_getElem (l : List Byte) (k : Nat) (hk : k < (wordsOfBytes l).length) :
    ((wordsOfBytes l)[k]).toNat = byteAt l (2 * k) * 256 + byteAt l (2 * k + 1) := by
  induction l using wordsOfBytes.induct generalizing k with
  | case1 hi lo rest ih =>
    cases k with
    | zero => simp [wordsOfBytes, byteAt, wordOfBytes_toNat]
    | succ k =>
      simp only [wordsOfBytes, List.getElem_cons_succ]
      rw [ih k (by simpa [wordsOfBytes] using hk)]
      rfl
  | case2 l h =>
    have : wordsOfBytes l = [] := by
      rw [wordsOfBytes]
      exact fun a b r e => h a b r e
    simp [this] at hk

/-- Words placed from `o`, where they do not run past the last cell: cell `a` takes word a − o, every other cell stays (R178). -/
theorem Memory.get_placeWords (ws : List Word) (m : Memory) (o a : Word) (h : o.toNat + ws.length ≤ Config.memCells) :
    (m.placeWords o ws).get a =
      if hr : o.toNat ≤ a.toNat ∧ a.toNat < o.toNat + ws.length then ws[a.toNat - o.toNat]'(by omega) else m.get a := by
  unfold Config.memCells at h
  induction ws generalizing m o with
  | nil => simp [Memory.placeWords]
  | cons w ws ih =>
    simp only [List.length_cons] at h
    show ((m.set o w).placeWords (o + 1) ws).get a = _
    have ho := o.isLt
    have ha := a.isLt
    by_cases hlast : o.toNat = 65535
    · obtain rfl : ws = [] := List.length_eq_zero_iff.mp (by omega)
      simp only [Memory.placeWords, Memory.get_set, List.length_cons, List.length_nil]
      by_cases hao : a = o
      · subst hao
        simp
      · have : a.toNat ≠ o.toNat := fun e => hao (BitVec.eq_of_toNat_eq e)
        rw [if_neg hao, dif_neg (by omega)]
    · have h1 : (o + 1).toNat = o.toNat + 1 := by
        rw [BitVec.toNat_add]
        simp
        omega
      rw [ih _ _ (by omega), Memory.get_set]
      by_cases hao : a = o
      · subst hao
        rw [dif_neg (by omega), if_pos rfl, dif_pos (by simp)]
        simp
      · have hne : a.toNat ≠ o.toNat := fun e => hao (BitVec.eq_of_toNat_eq e)
        rw [if_neg hao]
        by_cases hr : o.toNat ≤ a.toNat ∧ a.toNat < o.toNat + (ws.length + 1)
        · rw [dif_pos (by omega), dif_pos (by simpa using hr)]
          have : a.toNat - o.toNat = a.toNat - (o + 1).toNat + 1 := by omega
          simp [this]
        · rw [dif_neg (by omega), dif_neg (by simpa using hr)]

end Sys2Proof.Machine
end

