-- ==== Sys2Proof/Laws/Operands.lean ====
section
/-! SUPPORT. What the operand forms and the flag computation compute, said once in the terms of the spec. -/

namespace Sys2Proof.Machine

/-- `sext` is the core library's sign extension (R8). -/
theorem sext_eq_signExtend {n : Nat} (h : n ≤ 16) (v : BitVec n) : sext v = v.signExtend 16 := by
  apply BitVec.eq_of_getLsbD_eq
  intro k hk
  rw [BitVec.getLsbD_signExtend]
  unfold sext
  split
  · next hm =>
    simp only [BitVec.getLsbD_or, BitVec.getLsbD_setWidth, BitVec.getLsbD_shiftLeft, hk]
    by_cases hn : k < n
    · simp [hn]
    · have ones : ∀ j : Fin 16, (0xFFFF#16).getLsbD j = true := by decide
      simp [hn, hm, ones ⟨k - n, by omega⟩]
  · next hm =>
    simp only [BitVec.getLsbD_setWidth, hk]
    by_cases hn : k < n
    · simp [hn]
    · simp [hn, hm, BitVec.getLsbD_of_ge v k (by omega)]

/-- A sum with a sign-extended field, as a number: the field counts as signed, the sum is taken modulo 2^16 (R8, R9). -/
theorem toNat_add_sext {n : Nat} (h : n ≤ 16) (a : Word) (v : BitVec n) :
    ((a + sext v).toNat : Int) = (a.toNat + v.toInt) % 65536 := by
  have h1 : (sext v).toInt = v.toInt := by rw [sext_eq_signExtend h, BitVec.toInt_signExtend_of_le h]
  rw [BitVec.toInt_eq_toNat_bmod] at h1
  have : (sext v).toNat < 65536 := (sext v).isLt
  rw [BitVec.toNat_add, ← h1, Int.bmod_def]
  push_cast
  split <;> omega

theorem lowByte_eq_setWidth (w : Word) : lowByte w = w.setWidth 8 := by
  apply BitVec.eq_of_getLsbD_eq
  intro k hk
  simp [lowByte, hk]

theorem highByte_eq_setWidth (w : Word) : highByte w = (w >>> 8).setWidth 8 := by
  apply BitVec.eq_of_getLsbD_eq
  intro k hk
  simp [highByte, hk]

theorem highByte_toNat (w : Word) : (highByte w).toNat = w.toNat / 256 := by
  have := w.isLt
  simp [highByte, BitVec.extractLsb', Nat.shiftRight_eq_div_pow]
  omega

/-- `condOf` gives the one flag of the value (R25). -/
theorem flagOf_condOf (v : Word) : FlagOf v (condOf v) := by
  unfold FlagOf condOf
  have hz : v = 0x0000 ↔ v.toNat = 0 := ⟨fun h => by simp [h], fun h => BitVec.eq_of_toNat_eq h⟩
  have hm : v.getLsbD 15 = decide (32768 ≤ v.toNat) := by
    simpa [BitVec.msb_eq_getLsbD_last] using BitVec.msb_eq_decide v
  rw [hm]
  split
  · next h =>
    have := hz.mp h
    simp
    omega
  · next h =>
    have h0 : v.toNat ≠ 0 := fun e => h (hz.mpr e)
    split
    · next h2 =>
      simp at h2
      simp
      omega
    · next h2 =>
      simp at h2
      simp
      omega

/-- No word is available exactly when `KeyAvailable()` answers false (R11). -/
theorem noKeyReady_iff (s : State) : NoKeyReady s ↔ s.keyAvailable = false := by
  rw [← Bool.not_eq_true, State.keyAvailable_iff]
  simp [NoKeyReady, KeyReady]

/-- `writeResult` writes DR and COND and nothing else. -/
theorem onlyResult_writeResult (dr : Reg) (s : State) (v : Word) : OnlyResult dr s (s.writeResult dr v) :=
  ⟨fun r hr => State.writeResult_x_ne s dr r v (by simpa using hr), rfl, fun _ => rfl, ⟨rfl, rfl⟩, rfl, rfl, rfl⟩

end Sys2Proof.Machine
end

