-- ==== Sys2Proof/Laws/PerInstr.lean ====
section
/-! SUPPORT. One lemma per instruction: its word lies in its row of spec/opcode_table.json. -/

namespace Sys2Proof.Laws.EncodedInItsRow

/-- The encoder's word matches the row the instruction belongs to (the table's `w & mask = match`). -/
def Statement (i : Instr) : Prop := encode i &&& i.row.mask = i.row.pattern

/-- The bits a row's mask keeps are one or two fields: `instr[15:12]`, and the flag bit where there is one. -/
theorem mask_top (w : Word) : w &&& 0xF000#16 = place 12 (field 12 4 w) := by
  apply BitVec.eq_of_getLsbD_eq
  intro k hk
  simp only [BitVec.getLsbD_and, getLsbD_place, getLsbD_field, hk]
  interval_cases k <;> simp

theorem mask_imm (w : Word) : w &&& 0xF020#16 = place 12 (field 12 4 w) ||| place 5 (field 5 1 w) := by
  apply BitVec.eq_of_getLsbD_eq
  intro k hk
  simp only [BitVec.getLsbD_and, BitVec.getLsbD_or, getLsbD_place, getLsbD_field, hk]
  interval_cases k <;> simp

theorem mask_long (w : Word) : w &&& 0xF800#16 = place 12 (field 12 4 w) ||| place 11 (field 11 1 w) := by
  apply BitVec.eq_of_getLsbD_eq
  intro k hk
  simp only [BitVec.getLsbD_and, BitVec.getLsbD_or, getLsbD_place, getLsbD_field, hk]
  interval_cases k <;> simp

theorem br (c : BitVec 3) (o : BitVec 9) : Statement (.br c o) := by
  simp [Statement, Instr.row, encode, placeOp, mask_top, field_or, field_place_same, field_place_apart]
  decide

theorem addReg (d s t : Reg) : Statement (.addReg d s t) := by
  simp [Statement, Instr.row, encode, placeOp, placeReg, mask_imm, field_or, field_place_same, field_place_apart]
  decide

theorem addImm (d s : Reg) (v : BitVec 5) : Statement (.addImm d s v) := by
  simp [Statement, Instr.row, encode, placeOp, placeReg, mask_imm, field_or, field_place_same, field_place_apart]
  decide

theorem ld (d : Reg) (o : BitVec 9) : Statement (.ld d o) := by
  simp [Statement, Instr.row, encode, placeOp, placeReg, mask_top, field_or, field_place_same, field_place_apart]
  decide

theorem st (s : Reg) (o : BitVec 9) : Statement (.st s o) := by
  simp [Statement, Instr.row, encode, placeOp, placeReg, mask_top, field_or, field_place_same, field_place_apart]
  decide

theorem jsrr (b : Reg) : Statement (.jsrr b) := by
  simp [Statement, Instr.row, encode, placeOp, placeReg, mask_long, field_or, field_place_same, field_place_apart]
  decide

theorem jsr (o : BitVec 11) : Statement (.jsr o) := by
  simp [Statement, Instr.row, encode, placeOp, mask_long, field_or, field_place_same, field_place_apart]
  decide

theorem andReg (d s t : Reg) : Statement (.andReg d s t) := by
  simp [Statement, Instr.row, encode, placeOp, placeReg, mask_imm, field_or, field_place_same, field_place_apart]
  decide

theorem andImm (d s : Reg) (v : BitVec 5) : Statement (.andImm d s v) := by
  simp [Statement, Instr.row, encode, placeOp, placeReg, mask_imm, field_or, field_place_same, field_place_apart]
  decide

theorem ldr (d b : Reg) (o : BitVec 6) : Statement (.ldr d b o) := by
  simp [Statement, Instr.row, encode, placeOp, placeReg, mask_top, field_or, field_place_same, field_place_apart]
  decide

theorem str (s b : Reg) (o : BitVec 6) : Statement (.str s b o) := by
  simp [Statement, Instr.row, encode, placeOp, placeReg, mask_top, field_or, field_place_same, field_place_apart]
  decide

theorem rti : Statement (.rti) := by
  simp [Statement, Instr.row, encode, placeOp, mask_top, field_place_same]
  decide

theorem not (d s : Reg) : Statement (.not d s) := by
  simp [Statement, Instr.row, encode, placeOp, placeReg, mask_top, field_or, field_place_same, field_place_apart]
  decide

theorem ldi (d : Reg) (o : BitVec 9) : Statement (.ldi d o) := by
  simp [Statement, Instr.row, encode, placeOp, placeReg, mask_top, field_or, field_place_same, field_place_apart]
  decide

theorem sti (s : Reg) (o : BitVec 9) : Statement (.sti s o) := by
  simp [Statement, Instr.row, encode, placeOp, placeReg, mask_top, field_or, field_place_same, field_place_apart]
  decide

theorem jmp (b : Reg) : Statement (.jmp b) := by
  simp [Statement, Instr.row, encode, placeOp, placeReg, mask_top, field_or, field_place_same, field_place_apart]
  decide

theorem res : Statement (.res) := by
  simp [Statement, Instr.row, encode, placeOp, mask_top, field_place_same]
  decide

theorem lea (d : Reg) (o : BitVec 9) : Statement (.lea d o) := by
  simp [Statement, Instr.row, encode, placeOp, placeReg, mask_top, field_or, field_place_same, field_place_apart]
  decide

theorem trap (v : Byte) : Statement (.trap v) := by
  simp [Statement, Instr.row, encode, placeOp, mask_top, field_or, field_place_same, field_place_apart]
  decide

end Sys2Proof.Laws.EncodedInItsRow
end

