-- ==== Sys2Proof/Laws/Trap.lean ====
section
/-! SUPPORT. TRAP by its vector, the wait's outcome and the string scan, each said once. -/

namespace Sys2Proof.Machine

variable (s : State)

/-- Every vector is one of the six services or does nothing more than link (R151). -/
theorem trap_vector_cases (v : Byte) :
    v = 0x20 ∨ v = 0x21 ∨ v = 0x22 ∨ v = 0x23 ∨ v = 0x24 ∨ v = 0x25 ∨ v.toNat < 0x20 ∨ 0x25 < v.toNat := by
  have h (n : Byte) : v = n ↔ v.toNat = n.toNat := BitVec.toNat_inj.symm
  rw [h 0x20, h 0x21, h 0x22, h 0x23, h 0x24, h 0x25]
  simp only [BitVec.toNat_ofNat, BitVec.ofNat_eq_ofNat]
  omega

theorem exec_getc : exec (.trap 0x20) s = .next (s.link.receive .getc) := rfl

theorem exec_out : exec (.trap 0x21) s = .next ((s.link.writeChar (lowByte (s.link.x .r0))).flush) := rfl

theorem exec_puts : exec (.trap 0x22) s = s.link.serviceString (fun w => [lowByte w]) := rfl

theorem exec_in : exec (.trap 0x23) s = .next ((s.link.writeChars Config.inPrompt).receive .inChar) := rfl

theorem exec_putsp : exec (.trap 0x24) s = s.link.serviceString packedBytes := rfl

theorem exec_halt :
    exec (.trap 0x25) s = .next (((s.link.writeChars Config.haltNotice).flush).setRun .halted) := rfl

/-- A vector outside the table does nothing after the link (R158). -/
theorem exec_unknown {v : Byte} (h : v.toNat < 0x20 ∨ 0x25 < v.toNat) : exec (.trap v) s = .next s.link := by
  have hne (n : Byte) (hn : 0x20 ≤ n.toNat ∧ n.toNat ≤ 0x25) : v ≠ n := by rintro rfl; omega
  simp [exec, execTrap, hne Config.trapGetc (by decide), hne Config.trapOut (by decide), hne Config.trapPuts (by decide),
    hne Config.trapIn (by decide), hne Config.trapPutsp (by decide), hne Config.trapHalt (by decide)]

theorem State.serviceString_some (f : Word → List Byte) {ws : List Word} (h : s.stringAt (s.x .r0) = some ws) :
    s.serviceString f = .next ((s.writeChars (ws.flatMap f)).flush) := by simp [State.serviceString, h]

theorem State.serviceString_none (f : Word → List Byte) (h : s.stringAt (s.x .r0) = none) :
    s.serviceString f = .fault .stringNeverEnds := by simp [State.serviceString, h]

/-! ### The string scan -/

/-- The scan depends on memory only. -/
theorem State.stringWithin_congr {t : State} (h : ∀ a, t.memCell a = s.memCell a) (n : Nat) (a : Word) :
    t.stringWithin n a = s.stringWithin n a := by
  induction n generalizing a with
  | zero => rfl
  | succ n ih => simp only [State.stringWithin, h, ih]

theorem State.stringAt_congr {t : State} (h : ∀ a, t.memCell a = s.memCell a) (a : Word) : t.stringAt a = s.stringAt a :=
  State.stringWithin_congr s h _ a

/-- A scan that ends gives non-zero cells in a row with a zero cell after them, within its fuel (R154). -/
theorem State.stringWithin_some {n : Nat} {a : Word} {ws : List Word} (h : s.stringWithin n a = some ws) :
    ws.length < n ∧ (∀ k w, ws[k]? = some w → s.memCell (a + BitVec.ofNat 16 k) = w ∧ w ≠ 0x0000) ∧
      s.memCell (a + BitVec.ofNat 16 ws.length) = 0x0000 := by
  induction n generalizing a ws with
  | zero => simp [State.stringWithin] at h
  | succ n ih =>
    unfold State.stringWithin at h
    split at h
    · next hz =>
      obtain rfl : ws = [] := by simpa using h.symm
      simpa using hz
    · next hz =>
      obtain ⟨tl, htl, rfl⟩ := Option.map_eq_some_iff.mp h
      obtain ⟨h1, h2, h3⟩ := ih htl
      have hadd (k : Nat) : a + 1 + BitVec.ofNat 16 k = a + BitVec.ofNat 16 (k + 1) := by
        rw [BitVec.add_assoc, BitVec.ofNat_add, BitVec.add_comm (1 : Word)]
        rfl
      refine ⟨by simpa using h1, fun k w hk => ?_, by rw [List.length_cons, ← hadd]; exact h3⟩
      cases k with
      | zero =>
        obtain rfl : s.memCell a = w := by simpa using hk
        exact ⟨by simp, hz⟩
      | succ k => rw [← hadd]; exact h2 k w (by simpa using hk)

/-- A scan that does not end has met only non-zero cells. -/
theorem State.stringWithin_none {n : Nat} {a : Word} (h : s.stringWithin n a = none) (k : Nat) (hk : k < n) :
    s.memCell (a + BitVec.ofNat 16 k) ≠ 0x0000 := by
  induction n generalizing a k with
  | zero => omega
  | succ n ih =>
    unfold State.stringWithin at h
    split at h
    · cases h
    · next hz =>
      cases k with
      | zero => simpa using hz
      | succ k =>
        have := ih (Option.map_eq_none_iff.mp h) k (by omega)
        rwa [BitVec.add_assoc, BitVec.add_comm (1 : Word), show (1 : Word) = BitVec.ofNat 16 1 from rfl,
          ← BitVec.ofNat_add] at this

/-- A string in memory is what the scan returns (R154). -/
theorem State.stringAt_of_cells {a : Word} {ws : List Word} (h : StringCells s a ws) : s.stringAt a = some ws := by
  have hlen : ws.length < Config.memCells := by
    unfold Config.memCells
    by_contra hc
    obtain ⟨w, hw⟩ : ∃ w, ws[ws.length - 65536]? = some w := ⟨_, List.getElem?_eq_getElem (by omega)⟩
    obtain ⟨e1, e2⟩ := h.1 _ _ hw
    have : BitVec.ofNat 16 (ws.length - 65536) = BitVec.ofNat 16 ws.length := by
      apply BitVec.eq_of_toNat_eq
      simp
      omega
    rw [this, h.2] at e1
    exact e2 e1.symm
  unfold State.stringAt
  generalize Config.memCells = n at hlen
  induction n generalizing a ws with
  | zero => omega
  | succ n ih =>
    unfold State.stringWithin
    cases ws with
    | nil =>
      have h0 : s.memCell a = 0 := by simpa using h.2
      rw [if_pos h0]
    | cons w tl =>
      obtain ⟨e1, e2⟩ := h.1 0 w rfl
      simp only [BitVec.add_zero] at e1
      have hadd (k : Nat) : a + BitVec.ofNat 16 (k + 1) = a + 1 + BitVec.ofNat 16 k := by
        rw [BitVec.add_assoc, BitVec.ofNat_add, BitVec.add_comm (1 : Word)]
        rfl
      have htl : StringCells s (a + 1) tl :=
        ⟨fun k v hk => by rw [← hadd]; exact h.1 (k + 1) v (by simpa using hk), by rw [← hadd]; exact h.2⟩
      rw [if_neg (by rw [e1]; exact e2), ih htl (by simpa using hlen)]
      simp [e1]

/-- The scan fails only where no cell of the whole memory is zero: the addresses wrap (R154, R103). -/
theorem State.stringAt_none {a : Word} (h : s.stringAt a = none) (b : Word) : s.memCell b ≠ 0x0000 := by
  have hab : a + BitVec.ofNat 16 (b - a).toNat = b := by
    have := a.isLt
    have := b.isLt
    apply BitVec.eq_of_toNat_eq
    simp
    omega
  exact hab ▸ State.stringWithin_none s h (b - a).toNat (b - a).isLt

/-- What PUTS and PUTSP can answer when they answer a next state: the characters of the string at R0 and a flush. -/
theorem State.serviceString_next {f : Word → List Byte} {t : State} (h : s.serviceString f = .next t) :
    ∃ ws, StringCells s (s.x .r0) ws ∧ t = (s.writeChars (ws.flatMap f)).flush := by
  cases e : s.stringAt (s.x .r0) with
  | none =>
    rw [State.serviceString_none _ _ e] at h
    cases h
  | some ws =>
    rw [State.serviceString_some _ _ e] at h
    injection h with h
    exact ⟨ws, (State.stringWithin_some s e).2, h.symm⟩

/-- What TRAP can answer when it answers a next state: the link and some output; that and HALTED; that and a wait with no
word to come; that and one word taken into R0 and COND. -/
theorem trap_next {v : Byte} {t : State} (h : exec (.trap v) s = .next t) :
    (∃ o, t = { s.link with output := o }) ∨
    (v = 0x25 ∧ ∃ o, t = { s.link with output := o, run := .halted }) ∨
    ((v = 0x20 ∨ v = 0x23) ∧ s.input = [] ∧ ∃ o p, t = { s.link with output := o, wait := some p }) ∨
    ((v = 0x20 ∨ v = 0x23) ∧ ∃ k rest o, s.input = k :: rest ∧
      t = ({ s.link with output := o, wait := none, input := rest } : State).writeResult .r0 k.word) := by
  have str (f : Word → List Byte) (h : s.link.serviceString f = .next t) : ∃ o, t = { s.link with output := o } := by
    obtain ⟨ws, -, e⟩ := State.serviceString_next s.link h
    exact ⟨_, e⟩
  rcases trap_vector_cases v with rfl | rfl | rfl | rfl | rfl | rfl | h' | h'
  · rw [exec_getc] at h
    injection h with h
    subst h
    cases hi : s.input with
    | nil =>
      rw [State.receive_nil s.link _ hi]
      exact .inr (.inr (.inl ⟨.inl rfl, rfl, s.output, .getc, rfl⟩))
    | cons k rest =>
      rw [State.receive_cons s.link _ hi]
      exact .inr (.inr (.inr ⟨.inl rfl, k, rest, s.output, rfl, rfl⟩))
  · rw [exec_out] at h
    injection h with h
    exact .inl ⟨_, h.symm⟩
  · exact .inl (str _ (exec_puts s ▸ h))
  · rw [exec_in] at h
    injection h with h
    subst h
    cases hi : s.input with
    | nil =>
      rw [State.receive_nil (s.link.writeChars Config.inPrompt) _ hi]
      exact .inr (.inr (.inl ⟨.inr rfl, rfl, _, .inChar, rfl⟩))
    | cons k rest =>
      rw [State.receive_cons (s.link.writeChars Config.inPrompt) _ hi]
      exact .inr (.inr (.inr ⟨.inr rfl, k, rest, _, rfl, rfl⟩))
  · exact .inl (str _ (exec_putsp s ▸ h))
  · rw [exec_halt] at h
    injection h with h
    exact .inr (.inl ⟨rfl, _, h.symm⟩)
  · rw [exec_unknown s (.inl h')] at h
    injection h with h
    exact .inl ⟨s.output, h.symm⟩
  · rw [exec_unknown s (.inr h')] at h
    injection h with h
    exact .inl ⟨s.output, h.symm⟩

end Sys2Proof.Machine
end

