-- ==== Sys2Proof/Tests/Slice0.lean ====
section
/-! SUPPORT. The model's own tests. Expected results come from spec/95_test_vectors.md (a vector's name stands in the test's
comment) or are worked by hand from the rule cited; the witnesses at the end meet the hypotheses of the statements. -/

namespace Sys2Proof.Tests

open Sys2Proof Sys2Proof.Machine

/-! ### Well-formedness of the notation (R84): one ill-formed line for each check, refused -/

theorem test_wf_register : (Asm.addReg 8 0 0).word = none ∧ (Asm.addReg 0 8 0).word = none ∧ (Asm.addReg 0 0 8).word = none ∧
    (Asm.not 8 0).word = none ∧ (Asm.not 0 8).word = none ∧ (Asm.jmp 8).word = none ∧ (Asm.jsrr 8).word = none := by decide
theorem test_wf_and_register : (Asm.andReg 8 0 0).word = none ∧ (Asm.andReg 0 8 0).word = none ∧
    (Asm.andReg 0 0 8).word = none ∧ (Asm.andImm 8 0 0).word = none ∧ (Asm.andImm 0 8 0).word = none ∧
    (Asm.addImm 8 0 0).word = none ∧ (Asm.addImm 0 8 0).word = none := by decide
theorem test_wf_memory_register : (Asm.ld 8 0).word = none ∧ (Asm.ldi 8 0).word = none ∧ (Asm.lea 8 0).word = none ∧
    (Asm.st 8 0).word = none ∧ (Asm.sti 8 0).word = none ∧ (Asm.ldr 8 0 0).word = none ∧ (Asm.ldr 0 8 0).word = none ∧
    (Asm.str 8 0 0).word = none ∧ (Asm.str 0 8 0).word = none := by decide
theorem test_wf_imm5 : (Asm.addImm 0 0 16).word = none ∧ (Asm.addImm 0 0 (-17)).word = none ∧
    (Asm.andImm 0 0 16).word = none ∧ (Asm.andImm 0 0 (-17)).word = none := by decide
theorem test_wf_offset6 : (Asm.ldr 0 0 32).word = none ∧ (Asm.ldr 0 0 (-33)).word = none ∧ (Asm.str 0 0 32).word = none ∧
    (Asm.str 0 0 (-33)).word = none := by decide
theorem test_wf_offset9 : (Asm.br true true true 256).word = none ∧ (Asm.br true true true (-257)).word = none ∧
    (Asm.ld 0 256).word = none ∧ (Asm.ldi 0 256).word = none ∧ (Asm.lea 0 (-257)).word = none ∧ (Asm.st 0 256).word = none ∧
    (Asm.sti 0 (-257)).word = none := by decide
theorem test_wf_offset11 : (Asm.jsr 1024).word = none ∧ (Asm.jsr (-1025)).word = none := by decide
theorem test_wf_branch_names_a_flag : (Asm.br false false false 0).word = none := by decide
theorem test_wf_vector_and_fill : (Asm.trap 256).word = none ∧ (Asm.fill 65536).word = none := by decide
theorem test_wf_boundaries_accepted : (Asm.addImm 7 7 (-16)).wellFormed ∧ (Asm.addImm 0 0 15).wellFormed ∧
    (Asm.ldr 0 0 (-32)).wellFormed ∧ (Asm.ld 0 255).wellFormed ∧ (Asm.jsr (-1024)).wellFormed ∧ (Asm.trap 255).wellFormed ∧
    (Asm.fill 65535).wellFormed := by decide

/-! ### The notation's words (95 sections 2 and 3) -/

theorem test_notation_alu : (Asm.addImm 1 1 (-16)).word = some 0x1270 ∧ (Asm.addReg 3 3 3).word = some 0x16C3 ∧
    (Asm.andImm 1 2 (-16)).word = some 0x52B0 ∧ (Asm.not 6 5).word = some 0x9D7F := by decide
theorem test_notation_control : (Asm.br false false true (-3)).word = some 0x03FD ∧
    (Asm.br false true true (-2)).word = some 0x07FE ∧ (Asm.br true false false (-256)).word = some 0x0900 ∧
    Asm.ret.word = some 0xC1C0 ∧ (Asm.jsr (-1024)).word = some 0x4C00 := by decide
theorem test_notation_memory : (Asm.ldr 3 2 (-1)).word = some 0x66BF ∧ (Asm.lea 2 11).word = some 0xE40B ∧
    (Asm.sti 4 7).word = some 0xB807 ∧ (Asm.fill 0x4000).word = some 0x4000 := by decide
theorem test_notation_services : Asm.getc.word = some 0xF020 ∧ Asm.out.word = some 0xF021 ∧ Asm.puts.word = some 0xF022 ∧
    Asm.inChar.word = some 0xF023 ∧ Asm.putsp.word = some 0xF024 ∧ Asm.halt.word = some 0xF025 := by decide

/-! ### Decoding: one word a constructor, its bits written out from 30_encoding.md (words of 95 section 2.11) -/

theorem test_decode_br : decode 0b0000_001_111111101 = .br 0b001 (-3) := by decide
theorem test_decode_addReg : decode 0b0001_010_001_0_00_011 = .addReg .r2 .r1 .r3 := by decide
theorem test_decode_addImm : decode 0b0001_000_000_1_00000 = .addImm .r0 .r0 0 := by decide
theorem test_decode_ld : decode 0b0010_010_000000101 = .ld .r2 5 := by decide
theorem test_decode_st : decode 0b0011_001_000000100 = .st .r1 4 := by decide
theorem test_decode_jsrr : decode 0b0100_0_00_011_000000 = .jsrr .r3 := by decide
theorem test_decode_jsr : decode 0b0100_1_00000000011 = .jsr 3 := by decide
theorem test_decode_andReg : decode 0b0101_011_001_0_00_010 = .andReg .r3 .r1 .r2 := by decide
theorem test_decode_andImm : decode 0b0101_001_010_1_10000 = .andImm .r1 .r2 (-16) := by decide
theorem test_decode_ldr : decode 0b0110_011_010_111111 = .ldr .r3 .r2 (-1) := by decide
theorem test_decode_str : decode 0b0111_011_010_000001 = .str .r3 .r2 1 := by decide
theorem test_decode_rti : decode 0b1000_000000000000 = .rti := by decide
theorem test_decode_not : decode 0b1001_001_010_111111 = .not .r1 .r2 := by decide
theorem test_decode_ldi : decode 0b1010_001_000000010 = .ldi .r1 2 := by decide
theorem test_decode_sti : decode 0b1011_001_000000010 = .sti .r1 2 := by decide
theorem test_decode_jmp : decode 0b1100_000_111_000000 = .jmp .r7 := by decide
theorem test_decode_res : decode 0b1101_000000000000 = .res := by decide
theorem test_decode_lea : decode 0b1110_000_111111111 = .lea .r0 (-1) := by decide
theorem test_decode_trap : decode 0b1111_0000_00100101 = .trap 0x25 := by decide

/-- V9, V18, V42, V50, V124, V132: bits a form does not use are ignored. -/
theorem test_decode_ignored_bits : decode 0x145B = .addReg .r2 .r1 .r3 ∧ decode 0x9280 = .not .r1 .r2 ∧
    decode 0xCEBF = .jmp .r2 ∧ decode 0x46FF = .jsrr .r3 ∧ decode 0xFA25 = .trap 0x25 ∧ decode 0x8ABC = .rti := by decide

/-- The host's numbering: 16 bits are a word, fewer leave the bits above them 0, more are no instruction. -/
theorem test_decodeTableWord : decodeTableWord 16 0x1443 = some (.addReg .r2 .r1 .r3) ∧
    decodeTableWord 8 0xFF25 = some (.br 0 0x25) ∧ decodeTableWord 17 0 = none := by decide

/-! ### Sign extension and the flag (95 sections 1 and 2.1) -/

theorem test_sext : sext 0b11111#5 = 0xFFFF ∧ sext 0b01111#5 = 0x000F ∧ sext 0x20#6 = 0xFFE0 ∧ sext 0x1F#6 = 0x001F ∧
    sext 0x100#9 = 0xFF00 ∧ sext 0x0FF#9 = 0x00FF ∧ sext 0x400#11 = 0xFC00 ∧ sext 1#1 = 0xFFFF ∧ sext 0x8000#16 = 0x8000 := by
  decide
theorem test_condOf : condOf 0x0000 = .zero ∧ condOf 0x0001 = .positive ∧ condOf 0x7FFF = .positive ∧
    condOf 0x8000 = .negative ∧ condOf 0xFFFF = .negative := by decide

/-! ### One step on a small state -/

/-- The reset state with the registers `rs` and the cells `ms` written. -/
def start (rs : List (Reg × Word)) (ms : List (Word × Word)) : State :=
  ms.foldl (fun s c => s.memWrite c.1 c.2) (rs.foldl (fun s c => s.setReg c.1 c.2) State.reset)

/-- `f` of the state after one step that runs the word `w`. -/
def after {α : Type} (s : State) (w : Word) (f : State → α) : Option α :=
  match step (s.memWrite s.pc w) with
  | .next t => some (f t)
  | _ => none

/-- V3: the sum wraps into the sign. -/
theorem test_addReg_overflow :
    after (start [(.r1, 0x7FFF), (.r2, 1)] []) 0x1042 (fun t => (t.x .r0, t.cond, t.pc)) = some (0x8000, .negative, 0x3001) := by
  decide
/-- V2: DR and both sources the same register. -/
theorem test_addReg_same :
    after (start [(.r1, 0x8000)] []) 0x1241 (fun t => (t.x .r1, t.cond)) = some (0x0000, .zero) := by decide
/-- V6, V8: the immediate is signed. -/
theorem test_addImm_minus_one : after (start [] []) 0x127F (fun t => (t.x .r1, t.cond)) = some (0xFFFF, .negative) := by decide
theorem test_addImm_minus_sixteen :
    after (start [(.r1, 0x10)] []) 0x1270 (fun t => (t.x .r1, t.cond)) = some (0x0000, .zero) := by decide
/-- V10. -/
theorem test_andReg :
    after (start [(.r1, 0xF0F0), (.r2, 0xFF00)] []) 0x5642 (fun t => (t.x .r3, t.cond)) = some (0xF000, .negative) := by decide
/-- V14: the immediate is sign-extended. -/
theorem test_andImm :
    after (start [(.r2, 0x1234)] []) 0x52B0 (fun t => (t.x .r1, t.cond)) = some (0x1230, .positive) := by decide
/-- V17. -/
theorem test_not : after (start [(.r1, 0xFFFF)] []) 0x927F (fun t => (t.x .r1, t.cond)) = some (0x0000, .zero) := by decide
/-- V34: COND is ZERO after reset, BRz is taken. -/
theorem test_br_taken : after State.reset 0x0402 (fun t => t.pc) = some 0x3003 := by decide
/-- V36: the target wraps. -/
theorem test_br_wraps :
    after ((State.reset.setPc 0xFFFF).setCond .positive) 0x0EFF (fun t => (t.pc, t.cond)) = some (0x00FF, .positive) := by decide
/-- V43: any target; COND is kept. -/
theorem test_jmp :
    after ((start [(.r0, 0xFFFF)] []).setCond .negative) 0xC000 (fun t => (t.pc, t.cond)) = some (0xFFFF, .negative) := by decide
/-- V45. -/
theorem test_jsr : after State.reset 0x4C00 (fun t => (t.x .r7, t.pc)) = some (0x3001, 0x2C01) := by decide
/-- V48, V49: `JSRR R7` falls through. -/
theorem test_jsrr :
    after ((start [(.r3, 0x5000)] []).setPc 0x3010) 0x40C0 (fun t => (t.x .r7, t.pc)) = some (0x3011, 0x5000) := by decide
theorem test_jsrr_r7 :
    after ((start [(.r7, 0x5000)] []).setPc 0x3010) 0x41C0 (fun t => (t.x .r7, t.pc)) = some (0x3011, 0x3011) := by decide
/-- V61: LD adds to what DR held. -/
theorem test_ld_accumulates :
    after (start [(.r2, 0x1234)] [(0x3006, 0x1234)]) 0x2405 (fun t => (t.x .r2, t.cond)) = some (0x2468, .positive) := by decide
/-- V63: LD of its own word. -/
theorem test_ld_own_word : after (start [(.r2, 1)] []) 0x25FF (fun t => t.x .r2) = some 0x2600 := by decide
/-- V66. -/
theorem test_ldi :
    after (start [(.r1, 0x7777)] [(0x3003, 0x4000), (0x4000, 0xBEEF)]) 0xA202 (fun t => (t.x .r1, t.cond)) =
      some (0xBEEF, .negative) := by decide
/-- V68: the second read of LDI polls and finds a key. -/
theorem test_ldi_polls :
    after ((start [] [(0x3003, 0xFE00)]).setInput [⟨0, 0x41⟩]) 0xA202
      (fun t => (t.x .r1, t.memCell 0xFE00, t.memCell 0xFE02, t.input)) = some (0x8000, 0x8000, 0x0041, []) := by decide
/-- V73: the address wraps below 0. -/
theorem test_ldr_wraps :
    after (start [] [(0xFFFF, 0x8001)]) 0x66BF (fun t => (t.x .r3, t.cond)) = some (0x8001, .negative) := by decide
/-- V72: DR is the base. -/
theorem test_ldr_same :
    after (start [(.r2, 0x4000)] [(0x4000, 0x4001)]) 0x6480 (fun t => t.x .r2) = some 0x4001 := by decide
/-- V79: LEA sets COND from an address, here 0. -/
theorem test_lea :
    after ((State.reset.setPc 0).setCond .positive) 0xE1FF (fun t => (t.x .r0, t.pc, t.cond)) = some (0, 1, .zero) := by decide
/-- V93: the address wraps; COND is kept. -/
theorem test_st_wraps :
    after (((start [(.r1, 1)] []).setPc 0xFFFF).setCond .negative) 0x32FF (fun t => (t.memCell 0x00FF, t.pc, t.cond)) =
      some (1, 0, .negative) := by decide
/-- V92: a store to KBSR just stores. -/
theorem test_st_kbsr :
    after ((start [(.r1, 0x1234)] []).setPc 0xFDFF) 0x3200 (fun t => (t.memCell 0xFE00, t.pc)) = some (0x1234, 0xFE00) := by decide
/-- V96: a store through the pointer to KBDR, no poll. -/
theorem test_sti :
    after ((start [(.r1, 0x42)] [(0x3003, 0xFE02)]).setInput [⟨0, 0x41⟩]) 0xB202 (fun t => (t.memCell 0xFE02, t.input)) =
      some (0x42, [⟨0, 0x41⟩]) := by decide
/-- V98, V99. -/
theorem test_str_wraps :
    after (start [(.r2, 0xFFFF), (.r3, 0x2468)] []) 0x7681 (fun t => t.memCell 0) = some 0x2468 := by decide
theorem test_str_same : after (start [(.r2, 0x4000)] []) 0x7480 (fun t => t.memCell 0x4000) = some 0x4000 := by decide
/-- V130, V133: the abort keeps everything but run; pc was incremented before it. -/
theorem test_rti : after State.reset 0x8000 (fun t => (t.run, t.pc, t.cond)) = some (.aborted .rti, 0x3001, .zero) := by decide
theorem test_res : after (State.reset.setPc 0xFFFF) 0xDFFF (fun t => (t.run, t.pc)) = some (.aborted .res, 0) := by decide
/-- TRAP has six services behind one constructor. Input: V112 (GETC, the word kept whole), V118 (IN), R199 (GETC waits). -/
theorem test_trap_input :
    after (State.reset.setInput [⟨0, 0xFFFF⟩]) 0xF020 (fun t => (t.x .r0, t.x .r7, t.cond, t.input)) =
      some (0xFFFF, 0x3001, .negative, []) ∧
    after (State.reset.setInput [⟨0, 0x41⟩]) 0xF023 (fun t => (t.x .r0, t.cond, t.input)) = some (0x41, .positive, []) ∧
    after (start [(.r0, 0x9999)] []) 0xF020 (fun t => (t.wait, t.x .r0, t.x .r7)) = some (some .getc, 0x9999, 0x3001) := by
  decide
/-- V113 (OUT), V117 (PUTS, the string wraps), V119, V120 (PUTSP), V121 (HALT), V123 (an unknown vector). -/
theorem test_trap_output :
    after ((start [(.r0, 0x1241)] []).setCond .negative) 0xF021 (fun t => (t.output, t.cond)) =
      some ([.char 0x41, .flush], .negative) ∧
    after (start [(.r0, 0xFFFF)] [(0, 0x42), (0xFFFF, 0x41)]) 0xF022 (fun t => (t.output, t.x .r7)) =
      some ([.char 0x41, .char 0x42, .flush], 0x3001) ∧
    after (start [(.r0, 0x4000)] [(0x4000, 0x6548), (0x4001, 0x0079)]) 0xF024 (fun t => t.output) =
      some [.char 0x48, .char 0x65, .char 0x79, .flush] ∧
    after (start [(.r0, 0x4000)] [(0x4000, 0x4100)]) 0xF024 (fun t => t.output) = some [.char 0x00, .char 0x41, .flush] ∧
    after (State.reset.setPc 0x3002) 0xF025 (fun t => (t.run, t.x .r7, t.pc)) = some (.halted, 0x3003, 0x3003) ∧
    after ((start [(.r0, 0x41)] []).setCond .negative) 0xF0FF (fun t => (t.x .r0, t.x .r7, t.cond, t.output)) =
      some (0x41, 0x3001, .negative, []) := by decide

/-! ### Fetch and the keyboard (95 section 2.9) -/

/-- V140: the fetched word is the poll's 0000, not the 1234 in the cell. -/
theorem test_fetch_kbsr_no_key :
    after (State.reset.setPc 0xFE00) 0x1234 (fun t => (t.pc, t.run, t.memCell 0xFE00, t.x .r1)) =
      some (0xFE01, .running, 0, 0) := by decide
/-- V141. -/
theorem test_fetch_kbsr_key :
    after ((State.reset.setPc 0xFE00).setInput [⟨0, 0x41⟩]) 0x1234 (fun t => (t.pc, t.run, t.memCell 0xFE02)) =
      some (0xFE01, .aborted .rti, 0x41) := by decide
/-- V142: a fetch from KBDR does not poll. -/
theorem test_fetch_kbdr :
    after ((State.reset.setPc 0xFE02).setInput [⟨0, 0x41⟩]) 0x1021 (fun t => (t.x .r0, t.input)) =
      some (1, [⟨0, 0x41⟩]) := by decide

/-- What the host asks of a table word: the first step after reset runs it (V5). -/
theorem test_withFetchWord :
    step (State.reset.withFetchWord 16 0x1020) = exec (.addImm .r0 .r0 0) ((State.reset.withFetchWord 16 0x1020).setPc 0x3001) := rfl

/-! ### The loader (95 section 2.10) -/

/-- What memory holds after the image is loaded into memory of zeros. -/
def loaded (bytes : List Byte) : List (Nat × Word) := (State.reset.mem.loadImage bytes).cells

/-- L1, L6: big-endian. -/
theorem test_load : loaded [0x30, 0x00, 0x10, 0x20] = [(0x3000, 0x1020)] ∧ loaded [0x00, 0x30, 0x20, 0x10] = [(0x0030, 0x2010)] := by
  decide
/-- L2 to L5: too short, and an odd trailing byte. -/
theorem test_load_short : loaded [0x30, 0x00] = [] ∧ loaded [] = [] ∧ loaded [0x30] = [] ∧
    loaded [0x30, 0x00, 0x12, 0x34, 0x56] = [(0x3000, 0x1234)] := by decide
/-- L8, L9: truncation at the last cell, no wrap. -/
theorem test_load_truncates : loaded [0xFF, 0xFE, 0x00, 0x01, 0x00, 0x02, 0x00, 0x03] = [(0xFFFE, 1), (0xFFFF, 2)] ∧
    loaded [0xFF, 0xFF, 0x12, 0x34, 0x56, 0x78] = [(0xFFFF, 0x1234)] := by decide

/-! ### Witnesses: a concrete state and operands that meet all hypotheses of a statement together, one for each clause -/

/-- Reset with keys to come: the first ready at once, the second after one poll in vain. -/
def keys : State := State.reset.setInput [⟨0, 0x41⟩, ⟨1, 0x42⟩]

/-- A core waiting in GETC or IN, the link written. -/
def waiting (p : WaitPoint) : State := (State.reset.setReg .r7 0x3000).setWait (some p)

/-- Memory without a zero cell. -/
def fullMemory : Memory := ⟨(List.range Config.memCells).map fun a => (a, 1)⟩

theorem fullMemory_no_zero (a : Word) : fullMemory.get a ≠ 0x0000 := by
  have key (l : List Nat) (n : Nat) (h : n ∈ l) : lookupCell n (l.map fun a => (a, 1)) = 1 := by
    induction l with
    | nil => simp at h
    | cons b l ih =>
      by_cases hb : b = n
      · simp [lookupCell, hb]
      · rw [List.map_cons, lookupCell, if_neg hb]
        exact ih ((List.mem_cons.mp h).resolve_left (Ne.symm hb))
  have h : fullMemory.get a = 1 := by
    unfold fullMemory Memory.get
    have ha : a.toNat < Config.memCells := a.isLt
    generalize Config.memCells = n at ha ⊢
    exact key _ _ (List.mem_range.mpr ha)
  rw [h]
  decide

/-- Reset with no zero cell in memory, about to fetch TRAP PUTS. -/
def full : State := { State.reset with mem := fullMemory }

theorem witness_IgnoredBitsNeverChangeDecoding :
    (0x1443 : Word) &&& ~~~(decode 0x1443).row.ignored = 0x145B &&& ~~~(decode 0x1443).row.ignored := by decide

theorem witness_NotationMeansItsWords : (Asm.addImm 1 1 (-16)).word = some 0x1270 ∧
    (Asm.addImm 1 1 (-16)).instr = some (.addImm .r1 .r1 0b10000) ∧ signedOk 1 (-1) = true ∧ signedOk 1 0 = true ∧
    signedOk 16 (-32768) = true ∧ signedOk 16 32767 = true ∧ signedOk 9 (Asm.labelOffset 0x3000 0x3100) = true ∧
    signedOk 9 (Asm.labelOffset 0x3000 0x2F01) = true ∧ signedOk 11 (Asm.labelOffset 0x3000 0x3400) = true ∧
    signedOk 11 (Asm.labelOffset 0x3000 0x2C01) = true := by decide

theorem witness_SignExtensionKeepsSignedValue : (1#1).getLsbD 0 = true ∧ (0#1).getLsbD 0 = false ∧
    (0x8000#16).getLsbD 15 = true ∧ (0x7FFF#16).getLsbD 15 = false := by decide

theorem reset_inv : State.reset.Inv := ⟨by decide, by decide, by decide, by decide⟩

theorem waiting_inv (p : WaitPoint) : (waiting p).Inv := ⟨reset_mem_wf, fun _ => ⟨rfl, rfl, rfl⟩, fun h => (by cases h), fun h => absurd rfl h⟩

theorem halted_inv : ((State.reset.setReg .r7 0x3000).setRun .halted).Inv := ⟨by decide, by decide, by decide, by decide⟩

theorem witness_EveryStepKeepsInvariant : (∃ t, State.reset.Inv ∧ step State.reset = .next t) ∧
    (∃ t, (waiting .getc).Inv ∧ step (waiting .getc) = .next t) ∧
    (∃ t, ((State.reset.setReg .r7 0x3000).setRun .halted).Inv ∧
      step ((State.reset.setReg .r7 0x3000).setRun .halted) = .next t) :=
  ⟨⟨_, reset_inv, rfl⟩, ⟨_, waiting_inv _, rfl⟩, ⟨_, halted_inv, rfl⟩⟩

theorem witness_StepRunsDecodedInstruction : State.reset.Ready ∧ State.reset.pc ≠ 0xFE00 ∧ (keys.setPc 0xFE00).Ready := by
  decide

theorem witness_FetchWordIsRunNext : State.reset.pc ≠ 0xFE00 ∧ decodeTableWord 16 0xF025 = some (.trap 0x25) ∧
    decodeTableWord 0 0xFFFF = some (.br 0 0) := by decide

theorem witness_FetchFromKeyboardStatus : ((keys.setPc 0xFE00).Ready ∧ (keys.setPc 0xFE00).pc = 0xFE00 ∧
      KeyReady (keys.setPc 0xFE00) 0x41 [⟨1, 0x42⟩]) ∧
    ((State.reset.setPc 0xFE00).Ready ∧ NoKeyReady (State.reset.setPc 0xFE00)) ∧
    NoKeyReady ((State.reset.setPc 0xFE00).setInput [⟨1, 0x41⟩]) :=
  ⟨⟨by decide, rfl, rfl⟩, ⟨by decide, (noKeyReady_iff _).mpr rfl⟩, (noKeyReady_iff _).mpr rfl⟩

theorem witness_HaltedAndAbortedAreTerminal : (State.reset.setRun .halted).run = .halted ∧
    (State.reset.abort .rti).run = .aborted .rti ∧ (State.reset.abort .res).run = .aborted .res := by decide

theorem witness_StepFaultsOnlyWhereNamed : step (State.reset.abort .rti) = .fault (.aborted .rti) ∧
    step (State.boot [.unavailable]) = .fault .imageLoadError ∧
    (decode 0xF022 = .trap 0x22 ∧ decode 0xF024 = .trap 0x24 ∧ full.Ready ∧ ∀ a, full.memCell a ≠ 0x0000) :=
  ⟨rfl, rfl, by decide, by decide, ⟨rfl, rfl, rfl⟩, fullMemory_no_zero⟩

theorem witness_RunStateChangesOnlyByHaltAndAbort : (∃ t, step (State.reset.memWrite 0x3000 0xF025) = .next t ∧
      (State.reset.memWrite 0x3000 0xF025).Ready ∧ t.run = .halted) ∧
    (∃ t, step (State.reset.memWrite 0x3000 0xD000) = .next t ∧ t.run = .aborted .res) ∧
    (∃ t, step (State.boot [.stream []]) = .next t ∧ ¬ (State.boot [.stream []]).Ready) ∧
    (∃ t, step (waiting .inChar) = .next t ∧ ¬ (waiting .inChar).Ready) :=
  ⟨⟨_, rfl, by decide, rfl⟩, ⟨_, rfl, rfl⟩, ⟨_, rfl, by decide⟩, ⟨_, rfl, by decide⟩⟩

theorem witness_StoreIsSeenByNextFetch : (start [(.r1, 0xD000)] [(0x3000, 0x3200)]).Ready ∧
    (start [(.r1, 0xD000)] [(0x3000, 0x3200)]).pc ≠ 0xFE00 ∧ (start [(.r1, 0xD000)] [(0x3000, 0x3200)]).pc + 1 ≠ 0xFE00 ∧
    decode ((start [(.r1, 0xD000)] [(0x3000, 0x3200)]).memCell 0x3000) = .st .r1 0 := by decide

theorem witness_RegistersChangeOnlyAsListed : (∃ t, exec (.trap 0x20) keys = .next t) ∧
    (∃ t, exec (.jsrr .r7) State.reset = .next t) ∧ (∃ t, exec .rti State.reset = .next t) := ⟨⟨_, rfl⟩, ⟨_, rfl⟩, _, rfl⟩

/-- A register neither read nor written, one written and not read (DR of ADD, R7 of JSR and of TRAP, R0 of GETC with a word
to come), and R0 of IN with none to come. -/
theorem witness_UnreadRegistersDoNotMatter :
    (.r4 ∉ readsRegs (.addReg .r1 .r2 .r3) ∧ .r4 ∉ writesRegs (.addReg .r1 .r2 .r3)) ∧
    (.r1 ∉ readsRegs (.trap 0x23) ∧ .r1 ∉ writesRegs (.trap 0x23)) ∧
    (.r1 ∉ readsRegs (.addReg .r1 .r2 .r3) ∧ .r1 ∈ writesRegs (.addReg .r1 .r2 .r3)) ∧
    (.r7 ∉ readsRegs (.jsr 0) ∧ .r7 ∈ writesRegs (.jsr 0)) ∧ (.r7 ∉ readsRegs (.trap 0x22) ∧ .r7 ∈ writesRegs (.trap 0x22)) ∧
    (.r0 ∉ readsRegs (.trap 0x20) ∧ .r0 ∈ writesRegs (.trap 0x20) ∧ keys.input ≠ []) ∧
    (.r0 ∉ readsRegs (.trap 0x23) ∧ ReadsChar (.trap 0x23) ∧ State.reset.input = []) := by decide

theorem witness_FlagUpdateFollowsSign : (∃ t, flagReg (.lea .r3 0) = some .r3 ∧
      (ReadsChar (.lea .r3 0) → State.reset.input ≠ []) ∧ exec (.lea .r3 0) State.reset = .next t) ∧
    (∃ t, flagReg (.trap 0x20) = some .r0 ∧ (ReadsChar (.trap 0x20) → keys.input ≠ []) ∧ exec (.trap 0x20) keys = .next t) :=
  ⟨⟨_, rfl, by decide, rfl⟩, ⟨_, rfl, by decide, rfl⟩⟩

theorem witness_CondChangesOnlyByTheNine : (∃ t, exec (.trap 0x23) keys = .next t ∧ flagReg (.trap 0x23) = some .r0 ∧
      (ReadsChar (.trap 0x23) → keys.input ≠ [])) ∧
    (∃ t, exec (.trap 0x26) State.reset = .next t ∧ flagReg (.trap 0x26) = none) := ⟨⟨_, rfl, rfl, by decide⟩, _, rfl, rfl⟩

theorem witness_PcChangesOnlyByControlTransfer : (∃ t, exec (.trap 0x1F) State.reset = .next t ∧ writesPc (.trap 0x1F) = false) ∧
    (∃ t, exec (.br 0b100 5) State.reset = .next t ∧ State.reset.branchTaken 0b100 = false) ∧
    (∃ t, (State.reset.memWrite 0x3000 0x1021).Ready ∧ step (State.reset.memWrite 0x3000 0x1021) = .next t ∧
      writesPc (decode (State.reset.memWrite 0x3000 0x1021).fetch.1) = false) ∧
    (∃ t, exec (.jsr 0x400) State.reset = .next t) ∧ (∃ t, exec (.jsrr .r7) State.reset = .next t) ∧
    (∃ t, exec (.lea .r7 0) State.reset = .next t) :=
  ⟨⟨_, rfl, rfl⟩, ⟨_, rfl, by decide⟩, ⟨_, by decide, rfl, by decide⟩, ⟨_, rfl⟩, ⟨_, rfl⟩, _, rfl⟩

theorem witness_OnlyStoresWriteOrdinaryCells : (∃ t, exec (.ld .r1 0) (keys.setPc 0xFE00) = .next t ∧ ¬ Stores (.ld .r1 0)) ∧
    (∃ t, exec (.ld .r1 0) (State.reset.setPc 0xFE00) = .next t) ∧ (∃ t, exec .rti keys = .next t ∧ ¬ Stores .rti) :=
  ⟨⟨_, rfl, by simp [Stores]⟩, ⟨_, rfl⟩, _, rfl, by simp [Stores]⟩

theorem witness_InputIsConsumedInOrder : (∃ t, step (keys.setPc 0xFE00) = .next t) ∧
    (∃ t, step (keys.memWrite 0x3000 0xF020) = .next t) ∧ (∃ t, step ((waiting .getc).hostSends 0 0x41) = .next t) :=
  ⟨⟨_, rfl⟩, ⟨_, rfl⟩, _, rfl⟩

theorem witness_WriteIsPureStore : KeyReady keys 0x41 [⟨1, 0x42⟩] := rfl

theorem witness_PollingReadDoesAsStated : KeyReady keys 0x41 [⟨1, 0x42⟩] ∧ NoKeyReady State.reset ∧
    NoKeyReady (State.reset.setInput [⟨1, 0x41⟩]) := ⟨rfl, (noKeyReady_iff _).mpr rfl, (noKeyReady_iff _).mpr rfl⟩

theorem witness_EachStatusReadIsItsOwnPoll : (KeyReady keys 0x41 [⟨1, 0x42⟩] ∧ NoKeyReady (keys.memRead 0xFE00).2) ∧
    KeyReady (State.reset.setInput [⟨0, 0x41⟩, ⟨0, 0x42⟩]) 0x41 [⟨0, 0x42⟩] :=
  ⟨⟨rfl, (noKeyReady_iff _).mpr (by decide)⟩, rfl⟩

theorem witness_CanonicalMemoriesThatReadAlikeAreEqual : (⟨[(0, 1), (0xFFFF, 2)]⟩ : Memory).wf ∧
    (((⟨[]⟩ : Memory).set 0xFFFF 2).set 0 1).wf ∧
    ∀ a, (⟨[(0, 1), (0xFFFF, 2)]⟩ : Memory).get a = (((⟨[]⟩ : Memory).set 0xFFFF 2).set 0 1).get a :=
  ⟨by decide, by decide, fun _ => rfl⟩

theorem witness_AddImmediateRoundTrip : (15#5 : BitVec 5) ≠ 0b10000 ∧ (17#5 : BitVec 5) ≠ 0b10000 ∧ (-16 : BitVec 5) = 0b10000 := by
  decide

theorem witness_BranchTestsOneFlag : ((0b100#3).getLsbD 2 ∧ (State.reset.setCond .negative).cond = .negative) ∧
    ((0b010#3).getLsbD 1 ∧ State.reset.cond = .zero) ∧ ((0b001#3).getLsbD 0 ∧ (State.reset.setCond .positive).cond = .positive) ∧
    ¬ (((0b101#3).getLsbD 2 ∧ State.reset.cond = .negative) ∨ ((0b101#3).getLsbD 1 ∧ State.reset.cond = .zero) ∨
      ((0b101#3).getLsbD 0 ∧ State.reset.cond = .positive)) := by decide

/-- JSR #1 at 0x3000, RET at 0x3002. -/
theorem witness_CallThenReturnComesBack : (start [] [(0x3000, 0x4801), (0x3002, 0xC1C0)]).Ready ∧
    (start [] [(0x3000, 0x4801), (0x3002, 0xC1C0)]).pc ≠ 0xFE00 ∧
    decode ((start [] [(0x3000, 0x4801), (0x3002, 0xC1C0)]).memCell 0x3000) = .jsr 1 ∧
    (0x3000 + 1 + sext (1 : BitVec 11) : Word) ≠ 0xFE00 ∧
    decode ((start [] [(0x3000, 0x4801), (0x3002, 0xC1C0)]).memCell (0x3000 + 1 + sext (1 : BitVec 11))) = .jmp .r7 := by decide

theorem witness_UnknownTrapOnlyLinks : ((0x00 : Byte).toNat < 0x20 ∨ 0x25 < (0x00 : Byte).toNat) ∧
    ((0x1F : Byte).toNat < 0x20 ∨ 0x25 < (0x1F : Byte).toNat) ∧ ((0x26 : Byte).toNat < 0x20 ∨ 0x25 < (0x26 : Byte).toNat) ∧
    ((0xFF : Byte).toNat < 0x20 ∨ 0x25 < (0xFF : Byte).toNat) := by decide

/-- GETC and IN: a word ready at once, one that polls would not find yet, and none. -/
theorem witness_GetcTakesOneWordOrWaits : keys.input = ⟨0, 0x41⟩ :: [⟨1, 0x42⟩] ∧
    (State.reset.setInput [⟨7, 0x41⟩]).input = ⟨7, 0x41⟩ :: [] ∧ State.reset.input = [] := by decide

theorem witness_InPromptsReadsAndEchoes : keys.input = ⟨0, 0x41⟩ :: [⟨1, 0x42⟩] ∧ State.reset.input = [] := by decide

/-- The string "OK" at 0x3003, the empty string, and one that wraps. -/
theorem witness_StringTrapsWriteTheString :
    StringCells (start [(.r0, 0x3003)] [(0x3003, 0x4F), (0x3004, 0x4B)]) 0x3003 [0x4F, 0x4B] ∧
    StringCells State.reset (State.reset.x .r0) [] ∧ StringCells (start [(.r0, 0xFFFF)] [(0, 0x42), (0xFFFF, 0x41)]) 0xFFFF [0x41, 0x42] := by
  refine ⟨⟨fun k w h => ?_, by decide⟩, ⟨fun k w h => by simp at h, by decide⟩, ⟨fun k w h => ?_, by decide⟩⟩ <;>
    (rcases k with _ | _ | k <;> simp at h <;> subst h <;> decide)

theorem witness_StringTrapsEndUnlessNoZeroCell : State.reset.memCell 0 = 0x0000 ∧ ∀ a, full.memCell a ≠ 0x0000 :=
  ⟨by decide, fullMemory_no_zero⟩

theorem witness_OnlyAWordEndsAWait (p : WaitPoint) : (waiting p).run = .running ∧ (waiting p).images = [] ∧
    (waiting p).wait = some p ∧ (waiting p).input = [] := ⟨rfl, rfl, rfl, rfl⟩

/-- Every row of the table answers a next state somewhere, GETC and IN with a word to come and without. -/
theorem witness_TrapTableHolds : (∃ t, exec (.trap 0x20) keys = .next t) ∧ (∃ t, exec (.trap 0x20) State.reset = .next t) ∧
    (∃ t, exec (.trap 0x23) keys = .next t) ∧ (∃ t, exec (.trap 0x23) State.reset = .next t) ∧
    (∃ t, exec (.trap 0x21) State.reset = .next t) ∧ (∃ t, exec (.trap 0x22) State.reset = .next t) ∧
    (∃ t, exec (.trap 0x24) State.reset = .next t) ∧ (∃ t, exec (.trap 0x25) State.reset = .next t) ∧
    (∃ t, exec (.trap 0x1F) State.reset = .next t) ∧ (∃ t, exec (.trap 0x26) State.reset = .next t) :=
  ⟨⟨_, rfl⟩, ⟨_, rfl⟩, ⟨_, rfl⟩, ⟨_, rfl⟩, ⟨_, rfl⟩, ⟨_, rfl⟩, ⟨_, rfl⟩, ⟨_, rfl⟩, ⟨_, rfl⟩, _, rfl⟩

/-- An image of two words at the top of memory (L8): its first and last cell, the cell below, and a stream that is too short. -/
theorem witness_ImageLandsAtItsOrigin : 2 ≤ [0xFF, 0xFE, 0, 1, 0, 2, (0 : Byte), 3].length ∧
    (imageOrigin [0xFF, 0xFE, 0, 1, 0, 2, 0, 3] ≤ (0xFFFE : Word).toNat ∧
      (0xFFFF : Word).toNat < imageOrigin [0xFF, 0xFE, 0, 1, 0, 2, 0, 3] + imageWords [0xFF, 0xFE, 0, 1, 0, 2, 0, 3]) ∧
    ¬ (imageOrigin [0xFF, 0xFE, 0, 1, 0, 2, 0, 3] ≤ (0xFFFD : Word).toNat) ∧ [(0x30 : Byte)].length < 2 := by decide

theorem witness_LoaderWritesNothingButItsCells : (State.boot [.stream [0x30, 0, 0x10, 0x20]]).run = .running ∧
    (State.boot [.stream [0x30, 0, 0x10, 0x20]]).images = .stream [0x30, 0, 0x10, 0x20] :: [] ∧
    (0x2FFF : Word).toNat < imageOrigin [0x30, 0, 0x10, 0x20] ∧
    imageOrigin [0x30, 0, 0x10, 0x20] + imageWords [0x30, 0, 0x10, 0x20] ≤ (0x3001 : Word).toNat ∧
    ∃ t, State.reset.images = [] ∧ step State.reset = .next t := ⟨rfl, rfl, by decide, by decide, _, rfl, rfl⟩

end Sys2Proof.Tests
end

section
/-! PROOFS. Sign extension (00_scope.md R8): the formula, and the signed value it keeps. -/

namespace Sys2Proof.Machine

theorem sext_of_signBit {n : Nat} {v : BitVec n} (h : v.getLsbD (n - 1) = true) :
    sext v = v.setWidth 16 ||| (0xFFFF#16 <<< n) := by
  simp [sext, BitVec.msb_eq_getLsbD_last, h]

theorem sext_of_not_signBit {n : Nat} {v : BitVec n} (h : v.getLsbD (n - 1) = false) : sext v = v.setWidth 16 := by
  simp [sext, BitVec.msb_eq_getLsbD_last, h]

/-- The signed meaning of R8: a word reads as the signed number its field did. -/
theorem toInt_sext {n : Nat} (h : n ≤ 16) (v : BitVec n) : (sext v).toInt = v.toInt := by
  rw [sext_eq_signExtend h, BitVec.toInt_signExtend_of_le h]

theorem sext_sixteen (v : BitVec 16) : sext v = v := by
  rw [sext_eq_signExtend le_rfl, BitVec.signExtend_eq]

/-- Settles O7: the formula's mask `AND 0xFFFF` changes no 16-bit word, and the value is the library's sign extension. -/
theorem signExtensionKeepsSignedValue : Obligations.SignExtensionKeepsSignedValue := by
  have mask (w : Word) : w &&& 0xFFFF#16 = w := BitVec.and_allOnes
  refine ⟨fun n _ hn v => ⟨fun h => ?_, sext_of_not_signBit, toInt_sext hn v⟩, sext_sixteen, by decide, by decide⟩
  rw [mask, sext_of_signBit h]

end Sys2Proof.Machine
end

section
/-! PROOFS. The output is append-only and never read (00_scope.md R13). Earlier output put before the output of a state
commutes with every operation, hence with every instruction and with the step. -/

namespace Sys2Proof.Machine

@[simp] theorem mapNext_next (f : State → State) (s : State) : mapNext f (.next s) = .next (f s) := rfl

@[simp] theorem mapNext_fault (f : State → State) (e : Fault) : mapNext f (.fault e) = .fault e := rfl

/-- `s` as it would be had `o` been written before everything its output holds. -/
def State.prependOutput (o : List ConsoleEvent) (s : State) : State := { s with output := o ++ s.output }

section
variable (s : State) (o : List ConsoleEvent)

/-! ### Registers, pc, memory, input and what is computed from them read as before -/

@[simp] theorem State.prependOutput_x (r : Reg) : (s.prependOutput o).x r = s.x r := rfl
@[simp] theorem State.prependOutput_pc : (s.prependOutput o).pc = s.pc := rfl
@[simp] theorem State.prependOutput_input : (s.prependOutput o).input = s.input := rfl
@[simp] theorem State.prependOutput_memCell (a : Word) : (s.prependOutput o).memCell a = s.memCell a := rfl
@[simp] theorem State.prependOutput_pcRel {n : Nat} (off : BitVec n) : (s.prependOutput o).pcRel off = s.pcRel off := rfl
@[simp] theorem State.prependOutput_baseOff (b : Reg) (off : BitVec 6) :
    (s.prependOutput o).baseOff b off = s.baseOff b off := rfl
@[simp] theorem State.prependOutput_branchTaken (c : BitVec 3) :
    (s.prependOutput o).branchTaken c = s.branchTaken c := rfl

/-- The scan for a string reads memory only. -/
@[simp] theorem State.prependOutput_stringAt (a : Word) : (s.prependOutput o).stringAt a = s.stringAt a :=
  State.stringAt_congr s (State.prependOutput_memCell s o) a

/-! ### The updates commute with earlier output -/

@[simp] theorem State.setReg_prependOutput (r : Reg) (v : Word) :
    (s.prependOutput o).setReg r v = (s.setReg r v).prependOutput o := rfl
@[simp] theorem State.setPc_prependOutput (v : Word) : (s.prependOutput o).setPc v = (s.setPc v).prependOutput o := rfl
@[simp] theorem State.setRun_prependOutput (r : RunState) :
    (s.prependOutput o).setRun r = (s.setRun r).prependOutput o := rfl
@[simp] theorem State.setWait_prependOutput (w : Option WaitPoint) :
    (s.prependOutput o).setWait w = (s.setWait w).prependOutput o := rfl
@[simp] theorem State.setInput_prependOutput (i : List InputWord) :
    (s.prependOutput o).setInput i = (s.setInput i).prependOutput o := rfl
@[simp] theorem State.memWrite_prependOutput (a v : Word) :
    (s.prependOutput o).memWrite a v = (s.memWrite a v).prependOutput o := rfl
@[simp] theorem State.writeResult_prependOutput (r : Reg) (v : Word) :
    (s.prependOutput o).writeResult r v = (s.writeResult r v).prependOutput o := rfl

/-- Output goes to the end, so what stands before it does not matter. -/
@[simp] theorem State.emit_prependOutput (es : List ConsoleEvent) :
    (s.prependOutput o).emit es = (s.emit es).prependOutput o := by
  simp [State.prependOutput, State.emit]

/-! ### The keyboard, the polling read and the fetch -/

@[simp] theorem State.pollMissed_prependOutput : (s.prependOutput o).pollMissed = s.pollMissed.prependOutput o := by
  cases h : s.input <;> simp [State.pollMissed, h]

@[simp] theorem State.poll_prependOutput : (s.prependOutput o).poll = s.poll.prependOutput o := by
  by_cases h : s.keyAvailable = true
  · obtain ⟨c, rest, hi⟩ := (State.keyAvailable_iff s).mp h
    rw [State.poll_key s hi, State.poll_key (s.prependOutput o) hi]
    rfl
  · have hn : s.keyAvailable = false := by simpa using h
    rw [State.poll_none s hn, State.poll_none (s.prependOutput o) hn]
    simp

@[simp] theorem State.memRead_prependOutput (a : Word) :
    (s.prependOutput o).memRead a = ((s.memRead a).1, (s.memRead a).2.prependOutput o) := by
  by_cases h : a = Config.kbsr <;> simp [State.memRead, h]

@[simp] theorem State.fetch_prependOutput :
    (s.prependOutput o).fetch = (s.fetch.1, s.fetch.2.prependOutput o) := by
  simp [State.fetch]

/-! ### The wait and the strings -/

@[simp] theorem State.deliver_prependOutput (w : WaitPoint) (c : Word) :
    (s.prependOutput o).deliver w c = (s.deliver w c).prependOutput o := by
  cases w <;> simp [State.deliver]

@[simp] theorem State.receive_prependOutput (w : WaitPoint) :
    (s.prependOutput o).receive w = (s.receive w).prependOutput o := by
  cases h : s.input with
  | nil => simp [State.receive_nil, h]
  | cons k rest => simp [State.receive_cons _ w h, State.receive_cons (s.prependOutput o) w h]

theorem State.serviceString_prependOutput (f : Word → List Byte) :
    (s.prependOutput o).serviceString f = mapNext (·.prependOutput o) (s.serviceString f) := by
  cases h : s.stringAt (s.x .r0) <;> simp [State.serviceString, h]

/-! ### The instructions, the loader and the step -/

theorem exec_trap_prependOutput (v : Byte) :
    exec (.trap v) (s.prependOutput o) = mapNext (·.prependOutput o) (exec (.trap v) s) := by
  rcases trap_vector_cases v with rfl | rfl | rfl | rfl | rfl | rfl | h | h
  · rw [exec_getc, exec_getc]
    simp
  · rw [exec_out, exec_out]
    simp
  · rw [exec_puts, exec_puts]
    exact State.serviceString_prependOutput s.link o _
  · rw [exec_in, exec_in]
    simp
  · rw [exec_putsp, exec_putsp]
    exact State.serviceString_prependOutput s.link o _
  · rw [exec_halt, exec_halt]
    simp
  · simp [exec_unknown _ (.inl h)]
  · simp [exec_unknown _ (.inr h)]

/-- Every instruction commutes with earlier output: only TRAP writes output, and none reads it. -/
theorem exec_prependOutput (i : Instr) :
    exec i (s.prependOutput o) = mapNext (·.prependOutput o) (exec i s) := by
  cases i with
  | addReg | addImm | andReg | andImm | not | lea => rfl
  | jmp | jsr | jsrr => rfl
  | st | str => rfl
  | rti | res => rfl
  | br c off =>
    cases h : s.branchTaken c <;> simp [exec, execBr, h]
  | ld d off => simp [exec, execLd]
  | ldi d off => simp [exec, execLdi]
  | ldr d b off => simp [exec, execLdr]
  | sti r off => simp [exec, execSti]
  | trap v => exact exec_trap_prependOutput s o v

theorem loadNext_prependOutput (img : Image) (rest : List Image) :
    loadNext img rest (s.prependOutput o) = mapNext (·.prependOutput o) (loadNext img rest s) := by
  cases img <;> rfl

theorem runInstr_prependOutput : runInstr (s.prependOutput o) = mapNext (·.prependOutput o) (runInstr s) := by
  simp [runInstr, exec_prependOutput]

/-- The step commutes with earlier output, however it begins. -/
theorem step_prependOutput : step (s.prependOutput o) = mapNext (·.prependOutput o) (step s) := by
  cases hr : s.run with
  | halted => rw [step_halted s hr, step_halted (s.prependOutput o) hr, mapNext_next]
  | aborted c => rw [step_aborted s hr, step_aborted (s.prependOutput o) hr, mapNext_fault]
  | running =>
    cases hi : s.images with
    | cons img rest =>
      rw [step_loader s hr hi, step_loader (s.prependOutput o) hr hi, loadNext_prependOutput]
    | nil =>
      cases hw : s.wait with
      | some w =>
        rw [step_waiting s hr hi hw, step_waiting (s.prependOutput o) hr hi hw, State.receive_prependOutput, mapNext_next]
      | none =>
        rw [step_ready s ⟨hr, hi, hw⟩, step_ready (s.prependOutput o) ⟨hr, hi, hw⟩, runInstr_prependOutput]

end

/-- Settles O24: `WriteChar` appends by definition, and the step commutes with earlier output. -/
theorem outputIsAppendOnlyAndNeverRead : Obligations.OutputIsAppendOnlyAndNeverRead :=
  ⟨fun _ _ => rfl, step_prependOutput⟩

end Sys2Proof.Machine
end

section
/-! PROOFS. What writes COND and what writes pc (10_state.md R23, R25, R26). The instructions that update COND all end in
`writeResult`; every other instruction keeps COND, and every instruction but BR, JMP, JSR and JSRR keeps pc. -/

namespace Sys2Proof.Machine

section
variable {s t : State}

/-! ### The flag update -/

/-- `setcc` sets the one flag of the register's current value (R25). -/
theorem State.flagOf_setcc (s : State) (r : Reg) : FlagOf (s.x r) (s.setcc r).cond := flagOf_condOf (s.x r)

/-- After the write of a result COND is the flag of the value written (R25). -/
theorem State.flagOf_writeResult (s : State) (r : Reg) (v : Word) :
    FlagOf ((s.writeResult r v).x r) (s.writeResult r v).cond := by
  simpa using flagOf_condOf v

/-- COND already is what `setcc` of the register just written would make it. -/
theorem State.setcc_writeResult_cond (s : State) (r : Reg) (v : Word) :
    ((s.writeResult r v).setcc r).cond = (s.writeResult r v).cond := by simp

/-! ### What TRAP does to pc, R7 and COND -/

theorem readsChar_trap_iff (v : Byte) : ReadsChar (.trap v) ↔ v = 0x20 ∨ v = 0x23 := by
  simp only [ReadsChar, Instr.trap.injEq]

/-- Among the traps GETC and IN update COND, from R0, and no other does (R26). -/
theorem flagReg_trap (v : Byte) : flagReg (.trap v) = if v = 0x20 ∨ v = 0x23 then some .r0 else none := rfl

theorem trap_keeps_pc {v : Byte} (h : exec (.trap v) s = .next t) : t.pc = s.pc := by
  obtain ⟨o, rfl⟩ | ⟨-, o, rfl⟩ | ⟨-, -, o, p, rfl⟩ | ⟨-, k, rest, o, -, rfl⟩ := trap_next s h <;> rfl

/-- TRAP leaves the link in R7: no service writes R7 after it (R150). -/
theorem trap_links {v : Byte} (h : exec (.trap v) s = .next t) : t.x .r7 = s.pc := by
  obtain ⟨o, rfl⟩ | ⟨-, o, rfl⟩ | ⟨-, -, o, p, rfl⟩ | ⟨-, k, rest, o, -, rfl⟩ := trap_next s h <;> rfl

/-- A trap other than GETC and IN keeps COND (R26). -/
theorem trap_keeps_cond {v : Byte} (hf : flagReg (.trap v) = none) (h : exec (.trap v) s = .next t) :
    t.cond = s.cond := by
  have hv : ¬ (v = 0x20 ∨ v = 0x23) := fun hv => by rw [flagReg_trap, if_pos hv] at hf; cases hf
  obtain ⟨o, rfl⟩ | ⟨-, o, rfl⟩ | ⟨hv', -⟩ | ⟨hv', -⟩ := trap_next s h
  · rfl
  · rfl
  · exact absurd hv' hv
  · exact absurd hv' hv

/-- With a word to come `ReadChar` inside GETC or IN ends in the write of that word to R0 (R152, R155). -/
theorem State.receive_writes_result (w : WaitPoint) (hin : s.input ≠ []) :
    ∃ u c, s.receive w = State.writeResult u .r0 c := by
  obtain ⟨k, rest, hi⟩ := List.exists_cons_of_ne_nil hin
  rw [State.receive_cons s w hi]
  cases w <;> exact ⟨_, _, rfl⟩

/-- A trap that updates COND ends, once a word has arrived, with the write of a result to R0. -/
theorem trap_writes_result {v : Byte} {r : Reg} (hf : flagReg (.trap v) = some r)
    (hin : ReadsChar (.trap v) → s.input ≠ []) (h : exec (.trap v) s = .next t) :
    ∃ u c, t = State.writeResult u r c := by
  rw [flagReg_trap, Option.ite_none_right_eq_some] at hf
  obtain ⟨hv, hr⟩ := hf
  obtain rfl := Option.some.inj hr
  have hs : s.input ≠ [] := hin ((readsChar_trap_iff v).mpr hv)
  rcases hv with rfl | rfl
  · obtain rfl := Host.Outcome.next.inj (exec_getc s ▸ h)
    exact State.receive_writes_result .getc hs
  · obtain rfl := Host.Outcome.next.inj (exec_in s ▸ h)
    exact State.receive_writes_result .inChar hs

/-! ### What an instruction does to COND and pc -/

/-- Every instruction that updates COND ends with the write of a result to the register it updates COND from (R26). -/
theorem exec_writes_result {i : Instr} {r : Reg} (hf : flagReg i = some r) (hin : ReadsChar i → s.input ≠ [])
    (h : exec i s = .next t) : ∃ u v, t = State.writeResult u r v := by
  cases i with
  | addReg | addImm | andReg | andImm | not | lea | ld | ldi | ldr =>
    obtain rfl := Option.some.inj hf
    exact ⟨_, _, (Host.Outcome.next.inj h).symm⟩
  | trap v => exact trap_writes_result hf hin h
  | br | jmp | jsr | jsrr | st | sti | str | rti | res => cases hf

/-- Every other instruction keeps COND (R26). -/
theorem exec_keeps_cond {i : Instr} (hf : flagReg i = none) (h : exec i s = .next t) : t.cond = s.cond := by
  cases i with
  | addReg | addImm | andReg | andImm | not | lea | ld | ldi | ldr => cases hf
  | br c off =>
    obtain rfl := Host.Outcome.next.inj h
    split <;> rfl
  | jmp | jsr | jsrr | st | str | rti | res =>
    obtain rfl := Host.Outcome.next.inj h
    rfl
  | sti r off =>
    obtain rfl := Host.Outcome.next.inj h
    exact State.memRead_cond s _
  | trap v => exact trap_keeps_cond hf h

/-- Only the four control transfers of R23 write pc. -/
theorem exec_keeps_pc {i : Instr} (hw : writesPc i = false) (h : exec i s = .next t) : t.pc = s.pc := by
  cases i with
  | br | jmp | jsr | jsrr => cases hw
  | addReg | addImm | andReg | andImm | not | lea | st | str | rti | res =>
    obtain rfl := Host.Outcome.next.inj h
    rfl
  | ld | ldr | sti =>
    obtain rfl := Host.Outcome.next.inj h
    exact State.memRead_pc s _
  | ldi d off =>
    obtain rfl := Host.Outcome.next.inj h
    exact (State.memRead_pc _ _).trans (State.memRead_pc s _)
  | trap v => exact trap_keeps_pc h

/-- A BR whose condition does not hold does nothing at all (R120). -/
theorem exec_br_not_taken {c : BitVec 3} (off : BitVec 9) (hb : s.branchTaken c = false) : exec (.br c off) s = .next s := by
  simp [exec, execBr, hb]

/-- A step of a core about to fetch leaves pc incremented unless it runs a control transfer (R22, R23). -/
theorem step_increments_pc (hr : s.Ready) (h : step s = .next t) (hw : writesPc (decode s.fetch.1) = false) :
    t.pc = s.pc + 1 := by
  rw [step_ready s hr, runInstr] at h
  rw [exec_keeps_pc hw h, State.fetch_pc]

/-! ### The copies of pc -/

theorem jsr_links {off : BitVec 11} (h : exec (.jsr off) s = .next t) : t.x .r7 = s.pc := by
  obtain rfl := Host.Outcome.next.inj h
  rfl

theorem jsrr_links {b : Reg} (h : exec (.jsrr b) s = .next t) : t.x .r7 = s.pc := by
  obtain rfl := Host.Outcome.next.inj h
  rfl

/-- `LEA DR,#0` puts pc in DR (R133). -/
theorem lea_zero_copies_pc {dr : Reg} (h : exec (.lea dr 0) s = .next t) : t.x dr = s.pc := by
  obtain rfl := Host.Outcome.next.inj h
  simp [State.pcRel, sext]

end

/-- Settles O20: an instruction that updates COND ends in `writeResult`, whose flag is the flag of the value written. -/
theorem flagUpdateFollowsSign : Obligations.FlagUpdateFollowsSign := by
  refine ⟨fun s r => ⟨s.flagOf_setcc r, rfl⟩, fun i r s t hf hin h => ?_⟩
  obtain ⟨u, v, rfl⟩ := exec_writes_result hf hin h
  exact ⟨u.flagOf_writeResult r v, (u.setcc_writeResult_cond r v).symm⟩

/-- Settles O21: the nine end in `writeResult`, the others keep COND. -/
theorem condChangesOnlyByTheNine : Obligations.CondChangesOnlyByTheNine := by
  refine fun i s t h => ⟨fun r hf hin => ?_, fun hf => exec_keeps_cond hf h⟩
  obtain ⟨u, v, rfl⟩ := exec_writes_result hf hin h
  exact u.flagOf_writeResult r v

/-- Settles O22: pc is kept by every instruction but the four of R23, and incremented by the fetch. -/
theorem pcChangesOnlyByControlTransfer : Obligations.PcChangesOnlyByControlTransfer := by
  refine ⟨fun i s t h hw => exec_keeps_pc hw h, fun c off s t h hb => ?_, fun s t => step_increments_pc,
    fun off s t => jsr_links, fun b s t => jsrr_links, fun v s t => trap_links, fun dr s t => lea_zero_copies_pc⟩
  rw [exec_br_not_taken off hb] at h
  rw [Host.Outcome.next.inj h]

end Sys2Proof.Machine
end

section
/-! PROOFS. The memory write and the polling read that follows it (20_memory.md R42, R43). What a read of KBSR leaves in
the device cells is settled by the console input, which no memory write touches. -/

namespace Sys2Proof.Machine

variable (s : State)

/-- After a read of KBSR the cell holds READY or zero, by whether a key was available, whatever it held before (R42). -/
theorem State.memRead_kbsr_status :
    (s.memRead Config.kbsr).2.memCell Config.kbsr = if s.keyAvailable then Config.kbsrReady else Config.kbsrIdle := by
  cases h : s.keyAvailable with
  | false => simp [State.memRead_none s h]
  | true =>
    obtain ⟨c, rest, hi⟩ := (State.keyAvailable_iff s).mp h
    have hne : Config.kbsr ≠ Config.kbdr := by decide
    simp [State.memRead_key s hi, hne]

/-- A read of KBSR with a key ready leaves the key in KBDR, whatever KBDR held before (R42). -/
theorem State.memRead_kbsr_data {c : Word} {rest : List InputWord} (h : KeyReady s c rest) :
    (s.memRead Config.kbsr).2.memCell Config.kbdr = c := by
  rw [State.memRead_key s h, State.memCell_memWrite_same]

/-- A write does not touch the keyboard: the host's keys are as available as before (R43). -/
@[simp] theorem State.memWrite_keyAvailable (a v : Word) : (s.memWrite a v).keyAvailable = s.keyAvailable := rfl

/-- A write at any address stores the value and changes nothing else (R43). -/
theorem State.memWrite_stores_only (a v : Word) :
    (s.memWrite a v).memCell a = v ∧ KeepsMemBut a s (s.memWrite a v) ∧
    KeepsRegsBut [] s (s.memWrite a v) ∧ (s.memWrite a v).pc = s.pc ∧ (s.memWrite a v).cond = s.cond ∧
    KeepsConsole s (s.memWrite a v) ∧ KeepsControl s (s.memWrite a v) :=
  ⟨s.memCell_memWrite_same a v, s.memCell_memWrite_ne a v, fun r _ => s.memWrite_x a v r, s.memWrite_pc a v,
    s.memWrite_cond a v, ⟨s.memWrite_input a v, s.memWrite_output a v⟩,
    ⟨s.memWrite_run a v, s.memWrite_wait a v, s.memWrite_images a v⟩⟩

/-- No write at all, to KBSR or elsewhere, changes what the next read of KBSR leaves there (R43). -/
theorem State.memRead_kbsr_status_memWrite (a v : Word) :
    ((s.memWrite a v).memRead Config.kbsr).2.memCell Config.kbsr = (s.memRead Config.kbsr).2.memCell Config.kbsr := by
  rw [State.memRead_kbsr_status, State.memRead_kbsr_status, State.memWrite_keyAvailable]

/-- Settles O26: a write changes its cell only, and the next poll overwrites the device cells from the input it kept. -/
theorem writeIsPureStore : Obligations.WriteIsPureStore :=
  ⟨State.memWrite_stores_only, fun s v => s.memRead_kbsr_status_memWrite Config.kbsr v,
    fun s v _ _ h => (s.memWrite Config.kbdr v).memRead_kbsr_data h⟩

end Sys2Proof.Machine
end

section
/-! PROOFS. The image loader (47_image_loader.md). An image is stored word by word, so the cells it covers hold its words
whatever memory held before, and to load it again changes nothing. -/

namespace Sys2Proof.Machine

/-- The words an image loads end at the last cell or below: no load wraps round to address 0 (R179). -/
theorem origin_add_length_take_le (o : Word) (ws : List Word) :
    o.toNat + (ws.take (Config.memCells - o.toNat)).length ≤ Config.memCells := by
  have ho : o.toNat < Config.memCells := o.isLt
  have hlen := List.length_take_le (Config.memCells - o.toNat) ws
  omega

/-- Words placed a second time find every cell as the first time left it (R184). -/
theorem Memory.get_placeWords_twice (m : Memory) {o : Word} {ws : List Word}
    (h : o.toNat + ws.length ≤ Config.memCells) (a : Word) :
    ((m.placeWords o ws).placeWords o ws).get a = (m.placeWords o ws).get a := by
  rw [Memory.get_placeWords ws (m.placeWords o ws) o a h]
  split
  · next hcovered => rw [Memory.get_placeWords ws m o a h, dif_pos hcovered]
  · rfl

/-- An image loaded twice leaves every cell as when it was loaded once (R184). -/
theorem Memory.get_loadImage_twice (m : Memory) (bytes : List Byte) (a : Word) :
    ((m.loadImage bytes).loadImage bytes).get a = (m.loadImage bytes).get a := by
  match bytes with
  | [] | [_] => rfl
  | hi :: lo :: rest =>
    exact m.get_placeWords_twice (origin_add_length_take_le (wordOfBytes hi lo) (wordsOfBytes rest)) a

/-- The document's image stores its one word at its origin (R184). -/
theorem Memory.loadImage_document (m : Memory) : m.loadImage [0x30, 0x00, 0x10, 0x20] = m.set 0x3000 0x1020 := rfl

/-- Settles O57: the document's image is one store, and every image is a sequence of stores that repeats to no effect. -/
theorem documentImageLoads : Obligations.DocumentImageLoads := by
  intro m
  rw [Memory.loadImage_document]
  refine ⟨by decide, by decide, ?_, fun a ha => ?_, by decide, m.get_loadImage_twice⟩
  · rw [Memory.get_set, if_pos rfl]
  · rw [Memory.get_set, if_neg ha]

end Sys2Proof.Machine
end

section
/-! PROOFS. The decoder, the encoder and the opcode table (30_encoding.md R70 to R83). A field read back is the word
under the field's mask, so that the encoder rebuilds a word mask by mask, and a row's ignored bits carry no field. -/

namespace Sys2Proof

/-! ### Decoding an encoded instruction -/

/-- The encoder puts the opcode of an instruction where the decoder reads it, and each operand in its field (R72 to R78). -/
theorem decode_encode (i : Instr) : decode (encode i) = i := by
  cases i with
  | rti | res => simp [decode, encode, placeOp, field_place_same]
  | br | trap => simp [decode, encode, placeOp, field_or, field_place_same, field_place_apart]
  | ld | st | ldi | sti | lea | ldr | str | not | jmp =>
    simp [decode, encode, placeOp, placeReg, regField, field_or, field_place_same, field_place_apart]
  | addReg | addImm | andReg | andImm | jsr | jsrr =>
    simp [decode, encode, placeOp, placeReg, regField, field_or, field_place_same, field_place_apart, getElem_place]

/-- Settles O1: every field lies where the decoder reads it and apart from the others. -/
theorem decodeInvertsEncode : Obligations.DecodeInvertsEncode := decode_encode

/-! ### Encoding a decoded word -/

/-- A field read and placed back is the word under the field's mask. -/
theorem place_field (lo len : Nat) (w : Word) : place lo (field lo len w) = w &&& place lo (BitVec.allOnes len) := by
  apply BitVec.eq_of_getLsbD_eq
  intro k hk
  rw [getLsbD_place, BitVec.getLsbD_and, getLsbD_place, getLsbD_field, BitVec.getLsbD_allOnes]
  by_cases hlo : lo ≤ k
  · simp only [hk, hlo, decide_true, Bool.true_and, Nat.add_sub_cancel' hlo, Bool.and_comm]
  · simp [hlo]

theorem placeReg_regField (lo : Nat) (w : Word) : placeReg lo (regField lo w) = w &&& place lo (BitVec.allOnes 3) := by
  rw [placeReg, regField, Reg.num_ofNum, place_field]

theorem placeOp_of_opcode {w : Word} {o : Opcode} (h : Opcode.ofNum (field Config.opcodeLo 4 w) = o) :
    placeOp o = w &&& place Config.opcodeLo (BitVec.allOnes 4) := by
  rw [placeOp, ← h, Opcode.opcodeMap_ofNum, place_field]

/-- A flag bit as the one-bit field it is. -/
theorem field_one (w : Word) (b : Nat) : field b 1 w = BitVec.ofBool (w.getLsbD b) := by
  apply BitVec.eq_of_getLsbD_eq
  intro k hk
  obtain rfl : k = 0 := by omega
  rw [getLsbD_field]
  simp

/-- A flag that is set is the word under its bit. -/
theorem place_one_of_bit {w : Word} {b : Nat} (h : w.getLsbD b = true) : place b 1#1 = w &&& place b (BitVec.allOnes 1) := by
  rw [← place_field, field_one, h]
  rfl

/-- Under the bit of a flag that is clear the word is zero. -/
theorem and_place_of_not_bit {w : Word} {b : Nat} (h : w.getLsbD b = false) : w &&& place b (BitVec.allOnes 1) = 0#16 := by
  rw [← place_field, field_one, h]
  simp [place]

/-- The bits an encoder fills on its own account lie outside the used ones, and the fields cover those (R80, R83). -/
theorem and_used_of_masks {w fields fill used : Word} (hfields : fields &&& used = used) (hfill : fill &&& used = 0#16) :
    (w &&& fields ||| fill) &&& used = w &&& used := by
  rw [BitVec.and_or_distrib_right, BitVec.and_assoc, hfields, hfill, BitVec.or_zero]

/-- Encoding what a word decodes to gives its used bits back (R80). -/
theorem encode_decode (w : Word) :
    encode (decode w) &&& ~~~(decode w).row.ignored = w &&& ~~~(decode w).row.ignored := by
  have fields {m u : Word} (h : m &&& u = u) : w &&& m &&& u = w &&& u := by rw [BitVec.and_assoc, h]
  have flagClear {b : Nat} (hb : w.getLsbD b = false) {m u : Word} (h : (m ||| place b (BitVec.allOnes 1)) &&& u = u) :
      w &&& m &&& u = w &&& u := by
    rw [← fields h, BitVec.and_or_distrib_left, and_place_of_not_bit hb, BitVec.or_zero]
  cases ho : Opcode.ofNum (field Config.opcodeLo 4 w) with
  | br | ld | st | ldr | str | rti | ldi | sti | jmp | res | lea | trap =>
    simp only [decode, ho, encode, Instr.row, placeReg_regField, place_field, placeOp_of_opcode ho,
      ← BitVec.and_or_distrib_left]
    exact fields (by decide)
  | not =>
    simp only [decode, ho, encode, Instr.row, placeReg_regField, placeOp_of_opcode ho, ← BitVec.and_or_distrib_left]
    exact and_used_of_masks (by decide) (by decide)
  | add | and =>
    cases hb : w.getLsbD Config.immFlagBit <;>
      simp only [decode, ho, hb, if_true, if_false, Bool.false_eq_true, encode, Instr.row, placeReg_regField, place_field,
        place_one_of_bit (w := w), placeOp_of_opcode ho, ← BitVec.and_or_distrib_left]
    · exact flagClear hb (by decide)
    · exact fields (by decide)
  | jsr =>
    cases hb : w.getLsbD Config.longFlagBit <;>
      simp only [decode, ho, hb, if_true, if_false, Bool.false_eq_true, encode, Instr.row, placeReg_regField, place_field,
        place_one_of_bit (w := w), placeOp_of_opcode ho, ← BitVec.and_or_distrib_left]
    · exact flagClear hb (by decide)
    · exact fields (by decide)

/-- Settles O2: each field the decoder reads is the word under a mask, and the masks cover the bits the row uses. -/
theorem encodeInvertsDecodeOnUsedBits : Obligations.EncodeInvertsDecodeOnUsedBits := encode_decode

/-! ### The rows of the table -/

theorem encode_matches_row (i : Instr) : encode i &&& i.row.mask = i.row.pattern := by
  open Laws.EncodedInItsRow in
  cases i with
  | br c o => exact br c o
  | addReg d s t => exact addReg d s t
  | addImm d s v => exact addImm d s v
  | ld d o => exact ld d o
  | st s o => exact st s o
  | jsrr b => exact jsrr b
  | jsr o => exact jsr o
  | andReg d s t => exact andReg d s t
  | andImm d s v => exact andImm d s v
  | ldr d b o => exact ldr d b o
  | str s b o => exact str s b o
  | rti => exact rti
  | not d s => exact not d s
  | ldi d o => exact ldi d o
  | sti s o => exact sti s o
  | jmp b => exact jmp b
  | res => exact res
  | lea d o => exact lea d o
  | trap v => exact trap v

/-- The row of an instruction is the table's entry for its form, whatever its operands. -/
theorem Instr.row_mem_opcodeTable (i : Instr) : i.row ∈ opcodeTable := by cases i <;> simp [opcodeTable, Instr.row]

/-- No row tests a bit it ignores. -/
theorem Row.mask_used {r : Row} (h : r ∈ opcodeTable) : ~~~r.ignored &&& r.mask = r.mask := by
  revert r
  decide

/-- Rows that agree wherever both test a bit are one row: no two of the table match the same word (R82). -/
theorem Row.eq_of_patterns_agree {r q : Row} (hr : r ∈ opcodeTable) (hq : q ∈ opcodeTable)
    (h : r.pattern &&& q.mask = q.pattern &&& r.mask) : r = q := by
  have rows : ∀ r ∈ opcodeTable, ∀ q ∈ opcodeTable, r.pattern &&& q.mask = q.pattern &&& r.mask → r = q := by decide
  exact rows r hr q hq h

theorem decode_matches_row (w : Word) : w &&& (decode w).row.mask = (decode w).row.pattern := by
  have hused := Row.mask_used (decode w).row_mem_opcodeTable
  calc w &&& (decode w).row.mask
      = (w &&& ~~~(decode w).row.ignored) &&& (decode w).row.mask := by rw [BitVec.and_assoc, hused]
    _ = (encode (decode w) &&& ~~~(decode w).row.ignored) &&& (decode w).row.mask := by rw [encode_decode]
    _ = (decode w).row.pattern := by rw [BitVec.and_assoc, hused, encode_matches_row]

theorem Row.eq_of_matches {r q : Row} {w : Word} (hr : r ∈ opcodeTable) (hq : q ∈ opcodeTable)
    (hwr : w &&& r.mask = r.pattern) (hwq : w &&& q.mask = q.pattern) : r = q := by
  refine Row.eq_of_patterns_agree hr hq ?_
  rw [← hwr, ← hwq, BitVec.and_assoc, BitVec.and_assoc, BitVec.and_comm r.mask]

/-- Settles O3: a word matches the row it decodes to, and no two rows match one word. -/
theorem tableRowsPartitionAllWords : Obligations.TableRowsPartitionAllWords := by
  refine ⟨rfl, fun w => ⟨(decode w).row_mem_opcodeTable, fun r hr => ⟨fun hw => ?_, ?_⟩⟩⟩
  · exact Row.eq_of_matches hr (decode w).row_mem_opcodeTable hw (decode_matches_row w)
  · rintro rfl
    exact decode_matches_row w

/-! ### The ignored bits -/

/-- A placed field is zero under a mask that keeps none of its bits. -/
theorem place_and_eq_zero {n lo : Nat} {mask : Word} (hfit : lo + n ≤ 16)
    (h : place lo (BitVec.allOnes n) &&& mask = 0#16) (v : BitVec n) : place lo v &&& mask = 0#16 := by
  rw [← field_place_same lo v hfit, place_field, BitVec.and_assoc, h, BitVec.and_zero]

/-- The encoder leaves the ignored bits of a row zero, but those of NOT, the row that ignores bits 5:0, which it sets (R83). -/
theorem encode_ignored (i : Instr) : encode i &&& i.row.ignored = if i.row.ignored = 0x003F then 0x003F else 0 := by
  cases i <;>
    simp (disch := decide) [encode, Instr.row, placeOp, placeReg, BitVec.and_or_distrib_right, place_and_eq_zero]
  case not => decide

/-- An instruction is determined by its row and the used bits of its word: the encoder fills the others by the row alone. -/
theorem eq_of_row_of_used_bits {i j : Instr} (hrow : i.row = j.row)
    (hused : encode i &&& ~~~i.row.ignored = encode j &&& ~~~i.row.ignored) : i = j := by
  have split (w m : Word) : w &&& ~~~m ||| w &&& m = w := by
    rw [← BitVec.and_or_distrib_left, BitVec.not_or_self, BitVec.and_allOnes]
  have hword : encode i = encode j := by
    rw [← split (encode i) i.row.ignored, ← split (encode j) i.row.ignored, hused, encode_ignored, hrow, encode_ignored]
  rw [← decode_encode i, hword, decode_encode]

/-- Settles O4: the bits a row uses fix the row and, by encoding again, the instruction. -/
theorem ignoredBitsNeverChangeDecoding : Obligations.IgnoredBitsNeverChangeDecoding := by
  intro w v h
  have hmask := Row.mask_used (decode w).row_mem_opcodeTable
  have hmatch : v &&& (decode w).row.mask = (decode w).row.pattern := by
    rw [← hmask, ← BitVec.and_assoc, ← h, BitVec.and_assoc, hmask, decode_matches_row]
  have hrow : (decode v).row = (decode w).row :=
    Row.eq_of_matches (decode v).row_mem_opcodeTable (decode w).row_mem_opcodeTable (decode_matches_row v) hmatch
  refine eq_of_row_of_used_bits hrow ?_
  rw [encode_decode, hrow, encode_decode, h]

/-- Settles O5: each word of the spec's table, decoded. -/
theorem tabulatedWordsDecode : Obligations.TabulatedWordsDecode := by
  unfold Obligations.TabulatedWordsDecode
  decide

/-! ### The lines of the assembly language -/

theorem Asm.word_eq_none {l : Asm} (h : l.wellFormed = false) : l.word = none := by simp [Asm.word, h]

/-- The word of a well-formed instruction line is its instruction's. -/
theorem Asm.word_of_instr {l : Asm} {i : Instr} (h : l.wellFormed = true) (hi : l.instr = some i) :
    l.word = some (encode i) := by
  cases l with
  | fill v => cases hi
  | _ =>
    obtain rfl := Option.some.inj hi
    exact if_pos h

theorem Asm.word_isSome (l : Asm) : l.word.isSome = l.wellFormed := by
  cases h : l.wellFormed with
  | false => rw [Asm.word_eq_none h, Option.isSome_none]
  | true =>
    cases hi : l.instr with
    | some i => rw [Asm.word_of_instr h hi, Option.isSome_some]
    | none =>
      cases l with
      | fill v => rw [Asm.word, if_pos h, Option.isSome_some]
      | _ => cases hi

theorem Asm.decode_word {l : Asm} {i : Instr} {w : Word} (hw : l.word = some w) (hi : l.instr = some i) : decode w = i := by
  have hwf : l.wellFormed = true := by rw [← l.word_isSome, hw, Option.isSome_some]
  obtain rfl : encode i = w := Option.some.inj ((Asm.word_of_instr hwf hi).symm.trans hw)
  exact decode_encode i

/-- A number in the range of a field is the signed number the field holds (R79). -/
theorem toInt_ofInt_of_signedOk {n : Nat} (hn : 1 ≤ n) {v : Int} (h : signedOk n v = true) : (BitVec.ofInt n v).toInt = v := by
  simp only [signedOk, Bool.and_eq_true, decide_eq_true_eq] at h
  exact BitVec.toInt_ofInt_eq_self hn h.1 h.2

open Machine in
/-- A label whose offset fits is where the PC-relative sum of the incremented pc ends (R84). -/
theorem labelOffset_reaches {n : Nat} (hn : 1 ≤ n) (hn16 : n ≤ 16) {addr target : Word}
    (h : signedOk n (Asm.labelOffset addr target) = true) :
    (addr + 1) + sext (BitVec.ofInt n (Asm.labelOffset addr target)) = target := by
  have hsum := toNat_add_sext hn16 (addr + 1) (BitVec.ofInt n (Asm.labelOffset addr target))
  have hnext : (addr + 1).toNat = (addr.toNat + 1) % 65536 := BitVec.toNat_add addr 1
  have htarget := target.isLt
  rw [toInt_ofInt_of_signedOk hn h, hnext] at hsum
  apply BitVec.eq_of_toNat_eq
  unfold Asm.labelOffset at hsum ⊢
  omega

/-- Settles O6: the word of a line is the encoded instruction, and operands in range are kept by sign extension. -/
theorem notationMeansItsWords : Obligations.NotationMeansItsWords := by
  refine ⟨Asm.word_isSome, fun l i w => Asm.decode_word, fun n v hn hn16 h => ?_,
    fun addr target => labelOffset_reaches (by decide) (by decide),
    fun addr target => labelOffset_reaches (by decide) (by decide)⟩
  rw [Machine.toInt_sext hn16, toInt_ofInt_of_signedOk hn h]

end Sys2Proof
end

section
/-! PROOFS. Memory and the polling read (20_memory.md R42, R48). A polling read of the keyboard status has two outcomes, by
whether a key is ready; of any other address it has one, and changes nothing. -/

namespace Sys2Proof.Machine

/-! ### The canonical form of memory -/

/-- An address no entry has reads as the reset value. -/
theorem lookupCell_of_forall_ne {a : Nat} {l : List (Nat × Word)} (h : ∀ c ∈ l, c.1 ≠ a) :
    lookupCell a l = Config.resetCell := by
  induction l with
  | nil => rfl
  | cons c rest ih =>
    rw [lookupCell, if_neg (h c List.mem_cons_self), ih fun d hd => h d (List.mem_cons_of_mem c hd)]

/-- With rising addresses an entry is what a read of its address finds. -/
theorem lookupCell_of_mem {c : Nat × Word} {l : List (Nat × Word)} (hs : l.Pairwise fun c d => c.1 < d.1) (h : c ∈ l) :
    lookupCell c.1 l = c.2 := by
  induction l with
  | nil => cases h
  | cons d rest ih =>
    obtain ⟨hd, hrest⟩ := List.pairwise_cons.mp hs
    rcases List.mem_cons.mp h with rfl | h
    · rw [lookupCell, if_pos rfl]
    · rw [lookupCell, if_neg (hd c h).ne, ih hrest h]

/-- In canonical form the entries are the addresses below 65,536 that do not read as the reset value. -/
theorem Memory.mem_cells_iff {m : Memory} (h : m.wf) (c : Nat × Word) :
    c ∈ m.cells ↔ c.1 < Config.memCells ∧ c.2 ≠ Config.resetCell ∧ m.get (BitVec.ofNat 16 c.1) = c.2 := by
  have hget (hc : c.1 < Config.memCells) : m.get (BitVec.ofNat 16 c.1) = lookupCell c.1 m.cells := by
    rw [Memory.get, BitVec.toNat_ofNat]
    exact congrArg (lookupCell · m.cells) (Nat.mod_eq_of_lt hc)
  constructor
  · intro hc
    obtain ⟨hlt, hne⟩ := h.2 c hc
    exact ⟨hlt, hne, by rw [hget hlt, lookupCell_of_mem h.1 hc]⟩
  · rintro ⟨hlt, hne, hv⟩
    rw [hget hlt] at hv
    by_contra hc
    refine hne (hv ▸ lookupCell_of_forall_ne fun d hd e => hc ?_)
    have : d = c := Prod.ext e (by rw [← lookupCell_of_mem h.1 hd, e, hv])
    exact this ▸ hd

/-- Settles O29: a canonical memory lists in order of address exactly the cells that do not read as reset. -/
theorem canonicalMemoriesThatReadAlikeAreEqual : Obligations.CanonicalMemoriesThatReadAlikeAreEqual := by
  intro m n hm hn h
  have hmem (c : Nat × Word) : c ∈ m.cells ↔ c ∈ n.cells := by rw [Memory.mem_cells_iff hm, Memory.mem_cells_iff hn, h]
  have hnodup {k : Memory} (hk : k.wf) : k.cells.Nodup := hk.1.imp fun hlt e => hlt.ne (congrArg Prod.fst e)
  have hperm : m.cells.Perm n.cells := (List.perm_ext_iff_of_nodup (hnodup hm) (hnodup hn)).mpr hmem
  have : m.cells = n.cells := hperm.eq_of_pairwise (fun _ _ _ _ h1 h2 => absurd h1 h2.asymm) hm.1 hn.1
  cases m
  cases n
  exact congrArg Memory.mk this

/-! ### The polling read -/

/-- `0xFE00` and `0xFE02` are the parameters of R5. -/
theorem kbsr_ne_kbdr : Config.kbsr ≠ Config.kbdr := by decide

theorem readsAs_memRead (a : Word) (s : State) : ReadsAs a s (s.memRead a).1 := by
  refine ⟨fun ha => ?_, fun ha => by rw [State.memRead_ne s ha]⟩
  obtain rfl : a = Config.kbsr := ha
  refine ⟨fun c rest hk => ?_, fun hn => ?_⟩
  · rw [State.memRead_key s hk]
    rfl
  · rw [State.memRead_none s ((noKeyReady_iff s).mp hn)]
    rfl

theorem keyReady_or_not (s : State) : (∃ c rest, KeyReady s c rest) ∨ NoKeyReady s :=
  (em _).imp_right fun h c rest hk => h ⟨c, rest, hk⟩

theorem pendingWords_pollMissed (s : State) : s.pollMissed.pendingWords = s.pendingWords := by
  obtain ⟨i, hi, hw⟩ := State.pollMissed_eq s
  rw [hi]
  exact hw

@[simp] theorem State.pollMissed_memCell (s : State) (a : Word) : s.pollMissed.memCell a = s.memCell a := by
  obtain ⟨i, hi, -⟩ := State.pollMissed_eq s
  rw [hi, State.setInput_memCell]

theorem polledAt_memRead (a : Word) (s : State) : PolledAt a s (s.memRead a).2 := by
  refine ⟨fun ha => by rw [State.memRead_ne s ha]; exact ⟨fun _ => rfl, rfl⟩, fun ha => ?_⟩
  obtain rfl : a = Config.kbsr := ha
  refine ⟨fun c rest hk => ?_, fun hn => ?_⟩
  · rw [State.memRead_key s hk]
    refine ⟨rfl, ?_, State.memCell_memWrite_same _ _ _, fun b hb hb' => ?_⟩
    · exact (State.memCell_memWrite_ne _ _ _ _ kbsr_ne_kbdr).trans (State.memCell_memWrite_same _ _ _)
    · exact (State.memCell_memWrite_ne _ _ _ _ hb').trans (State.memCell_memWrite_ne _ _ _ _ hb)
  · rw [State.memRead_none s ((noKeyReady_iff s).mp hn)]
    refine ⟨pendingWords_pollMissed s, State.memCell_memWrite_same _ _ _, fun b hb => ?_⟩
    exact (State.memCell_memWrite_ne _ _ _ _ hb).trans (s.pollMissed_memCell b)

theorem keepsControl_memRead (a : Word) (s : State) : KeepsControl s (s.memRead a).2 :=
  ⟨s.memRead_run a, s.memRead_wait a, s.memRead_images a⟩

/-- Settles O27: the two outcomes of a poll, and no effect at any other address. -/
theorem pollingReadDoesAsStated : Obligations.PollingReadDoesAsStated := fun s a =>
  ⟨readsAs_memRead a s, polledAt_memRead a s, fun r _ => s.memRead_x a r, s.memRead_pc a, s.memRead_cond a,
    s.memRead_output a, keepsControl_memRead a s⟩

/-- Settles O28: the second read polls the input the first one left. -/
theorem eachStatusReadIsItsOwnPoll : Obligations.EachStatusReadIsItsOwnPoll := by
  intro s c rest hk read1 read2
  obtain ⟨hinput, -, hdata, -⟩ := ((polledAt_memRead 0xFE00 s).2 rfl).1 c rest hk
  refine ⟨((readsAs_memRead 0xFE00 s).1 rfl).1 c rest hk, hdata, fun hn => ⟨?_, ?_⟩, fun d more hrest => ?_⟩
  · exact ((readsAs_memRead 0xFE00 read1.2).1 rfl).2 hn
  · obtain ⟨-, -, hkeep⟩ := ((polledAt_memRead 0xFE00 read1.2).2 rfl).2 hn
    rw [hkeep 0xFE02 (by decide)]
    exact hdata
  · have hk' : KeyReady read1.2 d more := hinput.trans hrest
    obtain ⟨hinput', -, hdata', -⟩ := ((polledAt_memRead 0xFE00 read1.2).2 rfl).1 d more hk'
    exact ⟨((readsAs_memRead 0xFE00 read1.2).1 rfl).1 d more hk', hdata', hinput'⟩

/-! ### What instructions do to memory and to the console input -/

/-- Of LDI's two reads at most one polls: a poll returns 0x8000 or 0x0000, and neither is the address of KBSR. -/
theorem State.memRead_twice (s : State) (a : Word) :
    ∃ b, ((s.memRead a).2.memRead (s.memRead a).1).2 = (s.memRead b).2 := by
  by_cases ha : a = Config.kbsr
  · subst ha
    have hptr : (s.memRead Config.kbsr).1 ≠ Config.kbsr := by
      cases hk : s.keyAvailable with
      | false =>
        rw [State.memRead_none s hk]
        exact show Config.kbsrIdle ≠ Config.kbsr by decide
      | true =>
        obtain ⟨c, rest, hi⟩ := (State.keyAvailable_iff s).mp hk
        rw [State.memRead_key s hi]
        exact show Config.kbsrReady ≠ Config.kbsr by decide
    exact ⟨Config.kbsr, by rw [State.memRead_ne _ hptr]⟩
  · exact ⟨s.memCell a, by rw [State.memRead_ne s ha]⟩

section
variable {s t : State}

/-- Apart from TRAP an instruction takes from the console input what one polling read takes, and, unless it stores, changes
memory as that read does. An instruction that reads nothing is one that reads KBDR, where no read polls. -/
theorem exec_polls_at_most_once {i : Instr} (hi : ∀ v, i ≠ .trap v) (h : exec i s = .next t) :
    ∃ a, t.input = (s.memRead a).2.input ∧ (¬ Stores i → t.mem = (s.memRead a).2.mem) := by
  have noRead : (s.memRead Config.kbdr).2 = s := by rw [State.memRead_ne s kbsr_ne_kbdr.symm]
  cases i with
  | trap v => exact absurd rfl (hi v)
  | addReg | addImm | andReg | andImm | not | lea | jmp | jsr | jsrr | rti | res =>
    obtain rfl := Host.Outcome.next.inj h
    exact ⟨Config.kbdr, by rw [noRead]; rfl, fun _ => by rw [noRead]; rfl⟩
  | br c off =>
    obtain rfl := Host.Outcome.next.inj h
    exact ⟨Config.kbdr, by rw [noRead]; split <;> rfl, fun _ => by rw [noRead]; split <;> rfl⟩
  | ld | ldr =>
    obtain rfl := Host.Outcome.next.inj h
    exact ⟨_, rfl, fun _ => rfl⟩
  | ldi d off =>
    obtain rfl := Host.Outcome.next.inj h
    obtain ⟨b, hb⟩ := s.memRead_twice (s.pcRel off)
    exact ⟨b, by rw [← hb]; rfl, fun _ => by rw [← hb]; rfl⟩
  | st r off =>
    obtain rfl := Host.Outcome.next.inj h
    exact ⟨Config.kbdr, by rw [noRead]; rfl, fun hs => absurd (.inl ⟨r, off, rfl⟩) hs⟩
  | sti r off =>
    obtain rfl := Host.Outcome.next.inj h
    exact ⟨_, rfl, fun hs => absurd (.inr (.inl ⟨r, off, rfl⟩)) hs⟩
  | str r b off =>
    obtain rfl := Host.Outcome.next.inj h
    exact ⟨Config.kbdr, by rw [noRead]; rfl, fun hs => absurd (.inr (.inr ⟨r, b, off, rfl⟩)) hs⟩

theorem trap_keeps_mem {v : Byte} (h : exec (.trap v) s = .next t) : t.mem = s.mem := by
  obtain ⟨o, rfl⟩ | ⟨-, o, rfl⟩ | ⟨-, -, o, p, rfl⟩ | ⟨-, k, rest, o, -, rfl⟩ := trap_next s h <;> rfl

/-- An instruction that does not store leaves memory as some polling read does. -/
theorem exec_mem {i : Instr} (hi : ¬ Stores i) (h : exec i s = .next t) : ∃ a, t.mem = (s.memRead a).2.mem := by
  by_cases ht : ∃ v, i = .trap v
  · obtain ⟨v, rfl⟩ := ht
    exact ⟨Config.kbdr, by rw [trap_keeps_mem h, State.memRead_ne s kbsr_ne_kbdr.symm]⟩
  · obtain ⟨a, -, hmem⟩ := exec_polls_at_most_once (fun v hv => ht ⟨v, hv⟩) h
    exact ⟨a, hmem hi⟩

/-- Every instruction keeps memory in its canonical form. -/
theorem exec_keeps_wf {i : Instr} (hwf : s.mem.wf) (h : exec i s = .next t) : t.mem.wf := by
  by_cases hi : Stores i
  · obtain ⟨r, off, rfl⟩ | ⟨r, off, rfl⟩ | ⟨r, b, off, rfl⟩ := hi <;> obtain rfl := Host.Outcome.next.inj h
    · exact Memory.wf_set hwf _ _
    · exact Memory.wf_set (s.memRead_wf hwf) _ _
    · exact Memory.wf_set hwf _ _
  · obtain ⟨a, ha⟩ := exec_mem hi h
    rw [ha]
    exact s.memRead_wf hwf

end

/-- Settles O23: an instruction that does not store changes memory as a polling read does. -/
theorem onlyStoresWriteOrdinaryCells : Obligations.OnlyStoresWriteOrdinaryCells := by
  intro i s t h hi
  obtain ⟨a, ha⟩ := exec_mem hi h
  have hcell (b : Word) : t.memCell b = (s.memRead a).2.memCell b := congrArg (Memory.get · b) ha
  simp only [hcell]
  obtain ⟨helse, hkbsr⟩ := polledAt_memRead a s
  by_cases hk : a = 0xFE00
  · obtain ⟨c, rest, hkey⟩ | hn := keyReady_or_not s
    · obtain ⟨-, hstatus, hdata, hkeep⟩ := (hkbsr hk).1 c rest hkey
      refine ⟨hkeep, .inr (.inr ⟨hstatus, ?_⟩)⟩
      rw [hdata, State.pendingWords, hkey, List.map_cons, List.head?_cons]
    · obtain ⟨-, hstatus, hkeep⟩ := (hkbsr hk).2 hn
      exact ⟨fun b hb _ => hkeep b hb, .inr (.inl ⟨hstatus, hkeep 0xFE02 (by decide)⟩)⟩
  · obtain ⟨hkeep, -⟩ := helse hk
    exact ⟨fun b _ _ => hkeep b, .inl ⟨hkeep 0xFE00, hkeep 0xFE02⟩⟩

end Sys2Proof.Machine
end

section
/-! PROOFS. The instructions but TRAP, one by one (41_alu.md, 42_control.md, 43_load.md, 44_store.md, 46_reserved.md). -/

namespace Sys2Proof.Machine

/-! ### ADD, AND, NOT -/

theorem aluAdd_toNat (a b : Word) : (aluAdd a b).toNat = (a.toNat + b.toNat) % 65536 := BitVec.toNat_add a b

/-- A sign-extended field, bit by bit: the field's own bits and above them its sign (R8). -/
theorem getLsbD_sext {n : Nat} (hn : n ≤ 16) (v : BitVec n) {k : Nat} (hk : k < 16) :
    (sext v).getLsbD k = if k < n then v.getLsbD k else v.msb := by
  rw [sext_eq_signExtend hn, BitVec.getLsbD_signExtend, decide_eq_true hk, Bool.true_and]

/-- Settles O30: the result is the ALU's sum of the two sources. -/
theorem addRegisterAddsModulo : Obligations.AddRegisterAddsModulo := by
  refine fun dr sr1 sr2 s => ⟨_, rfl, ?_, s.flagOf_writeResult dr _, onlyResult_writeResult dr s _⟩
  rw [State.writeResult_x_same, aluAdd_toNat]

/-- Settles O31: the result is the ALU's sum with the sign-extended immediate. -/
theorem addImmediateAddsSigned : Obligations.AddImmediateAddsSigned := by
  refine fun dr sr1 imm s => ⟨_, rfl, ?_, s.flagOf_writeResult dr _, onlyResult_writeResult dr s _⟩
  rw [State.writeResult_x_same]
  exact toNat_add_sext (by decide) (s.x sr1) imm

/-- An immediate and its negation in five bits cancel once extended, but −16, which is its own negation. -/
theorem sext_add_sext_neg (imm : BitVec 5) : sext imm + sext (-imm) = if imm = 0b10000 then -32 else 0 := by
  revert imm
  decide

/-- Settles O32: the two immediates add up to 0, or to −32 for the immediate −16. -/
theorem addImmediateRoundTrip : Obligations.AddImmediateRoundTrip := by
  intro dr sr1 imm s
  refine ⟨_, _, rfl, rfl, ?_⟩
  have hsum : s.x sr1 + sext imm + sext (-imm) = s.x sr1 + if imm = 0b10000 then -32 else 0 := by
    rw [BitVec.add_assoc, sext_add_sext_neg]
  rw [State.writeResult_x_same, State.writeResult_x_same]
  refine ⟨fun h => hsum.trans ?_, fun h => hsum.trans ?_⟩
  · rw [if_neg h]
    exact BitVec.add_zero _
  · rw [if_pos h]
    exact (BitVec.sub_eq_add_neg _ _).symm

/-- Settles O33: the library's AND, bit by bit. -/
theorem andRegisterIsBitwise : Obligations.AndRegisterIsBitwise := by
  refine fun dr sr1 sr2 s => ⟨_, rfl, fun k _ => ?_, s.flagOf_writeResult dr _, onlyResult_writeResult dr s _⟩
  rw [State.writeResult_x_same]
  exact BitVec.getLsbD_and

/-- Settles O34: the bits of the sign-extended immediate from bit 4 up are its sign bit. -/
theorem andImmediateIsBitwiseSigned : Obligations.AndImmediateIsBitwiseSigned := by
  intro dr sr1 imm s
  refine ⟨_, rfl, fun k hk => ?_, fun k hk hk16 => ?_, s.flagOf_writeResult dr _, onlyResult_writeResult dr s _⟩ <;>
    rw [State.writeResult_x_same, aluAnd, BitVec.getLsbD_and, getLsbD_sext (by decide) imm (by omega)]
  · rw [if_pos (by omega)]
  · by_cases h4 : k = 4
    · rw [if_pos (by omega), h4]
    · rw [if_neg (by omega), BitVec.msb_eq_getLsbD_last]

/-- Settles O35: the library's complement, bit by bit. -/
theorem notIsBitwiseComplement : Obligations.NotIsBitwiseComplement := by
  refine fun dr sr s => ⟨_, rfl, fun k hk => ?_, s.flagOf_writeResult dr _, onlyResult_writeResult dr s _⟩
  rw [State.writeResult_x_same, aluNot, BitVec.getLsbD_not, decide_eq_true hk, Bool.true_and]

/-! ### BR, JMP, JSR, JSRR -/

/-- The bit of cond3 that tests COND's flag (R120, D5). -/
theorem State.branchTaken_iff (s : State) (c : BitVec 3) : s.branchTaken c = true ↔
    (c.getLsbD 2 ∧ s.cond = .negative) ∨ (c.getLsbD 1 ∧ s.cond = .zero) ∨ (c.getLsbD 0 ∧ s.cond = .positive) := by
  unfold State.branchTaken
  cases s.cond <;> revert c <;> decide

/-- A write of pc changes nothing else. -/
theorem onlyPcAnd_setPc (s : State) (v : Word) : OnlyPcAnd [] s (s.setPc v) :=
  ⟨fun _ _ => rfl, rfl, fun _ => rfl, ⟨rfl, rfl⟩, rfl, rfl, rfl⟩

/-- The link writes R7 and nothing else. -/
theorem keepsRegsBut_link (s : State) : KeepsRegsBut [.r7] s s.link :=
  fun r hr => s.x_setReg_ne .r7 r s.pc (by simpa using hr)

theorem onlyPcAnd_link_setPc (s : State) (v : Word) : OnlyPcAnd [.r7] s (s.link.setPc v) :=
  ⟨keepsRegsBut_link s, rfl, fun _ => rfl, ⟨rfl, rfl⟩, rfl, rfl, rfl⟩

/-- Settles O43: a word plus a sign-extended field, modulo 2^16. -/
theorem effectiveAddressesAreModular : Obligations.EffectiveAddressesAreModular :=
  ⟨fun s off => toNat_add_sext (by decide) s.pc off, fun s off => toNat_add_sext (by decide) s.pc off,
    fun s b off => toNat_add_sext (by decide) (s.x b) off⟩

/-- Settles O36: by whether the branch is taken. -/
theorem branchTestsOneFlag : Obligations.BranchTestsOneFlag := by
  intro c off s
  rw [← s.branchTaken_iff c]
  cases hb : s.branchTaken c with
  | false =>
    refine ⟨s, exec_br_not_taken off hb, fun h => absurd h Bool.false_ne_true, fun _ => rfl, ?_⟩
    exact onlyPcAnd_setPc s s.pc
  | true =>
    refine ⟨s.setPc (s.pcRel off), ?_, fun _ => effectiveAddressesAreModular.1 s off, fun h => absurd rfl h,
      onlyPcAnd_setPc s _⟩
    simp [exec, execBr, hb]

/-- Settles O37: the link, if there is one, and the target. -/
theorem jumpsAndCallsGoWhereStated : Obligations.JumpsAndCallsGoWhereStated := by
  refine fun s => ⟨fun b => ⟨_, rfl, rfl, onlyPcAnd_setPc s _⟩, fun off => ⟨_, rfl, rfl, ?_, onlyPcAnd_link_setPc s _⟩,
    fun b => ⟨_, rfl, rfl, fun hb => ?_, fun hb => ?_, onlyPcAnd_link_setPc s _⟩⟩
  · exact effectiveAddressesAreModular.2.1 s off
  · exact s.x_setReg_ne .r7 b s.pc hb
  · rw [hb]
    exact s.x_setReg_same .r7 s.pc

/-! ### Loads -/

/-- A read followed by the write of a result: the frame of the loads. -/
theorem onlyLoaded_memRead_writeResult (s : State) (a : Word) (dr : Reg) (v : Word) :
    OnlyLoaded dr s ((s.memRead a).2.writeResult dr v) := by
  refine ⟨fun r hr => ?_, s.memRead_pc a, s.memRead_output a, keepsControl_memRead a s⟩
  rw [State.writeResult_x_ne _ _ _ _ (by simpa using hr), State.memRead_x]

/-- What a read does to memory and input a write of a result does not undo. -/
theorem polledAt_memRead_writeResult (s : State) (a : Word) (dr : Reg) (v : Word) :
    PolledAt a s ((s.memRead a).2.writeResult dr v) := polledAt_memRead a s

/-- Settles O39: a polling read whose word is added to DR. -/
theorem loadAccumulates : Obligations.LoadAccumulates := by
  refine fun dr off s => ⟨(s.memRead (s.pcRel off)).1, _, rfl, readsAs_memRead _ s, ?_, State.flagOf_writeResult _ dr _,
    polledAt_memRead_writeResult s _ dr _, onlyLoaded_memRead_writeResult s _ dr _⟩
  rw [State.writeResult_x_same]
  exact aluAdd_toNat _ _

/-- Settles O40: two polling reads in a row, the second at the word the first returns. -/
theorem loadIndirectFollowsPointer : Obligations.LoadIndirectFollowsPointer := by
  intro dr off s
  refine ⟨(s.memRead (s.pcRel off)).1, (s.memRead (s.pcRel off)).2, _, rfl, readsAs_memRead _ s, polledAt_memRead _ s, ?_,
    polledAt_memRead_writeResult _ _ dr _, State.flagOf_writeResult _ dr _, fun r hr => ?_, ?_, ?_, ?_, ?_, ?_⟩
  · rw [State.writeResult_x_same]
    exact readsAs_memRead _ _
  · rw [State.writeResult_x_ne _ _ _ _ (by simpa using hr), State.memRead_x, State.memRead_x]
  all_goals simp

/-- Settles O41: a polling read whose word replaces DR. -/
theorem loadBaseOffsetReplaces : Obligations.LoadBaseOffsetReplaces := by
  refine fun dr b off s => ⟨_, rfl, ?_, polledAt_memRead_writeResult s _ dr _, State.flagOf_writeResult _ dr _,
    onlyLoaded_memRead_writeResult s _ dr _⟩
  rw [State.writeResult_x_same]
  exact readsAs_memRead _ s

/-- Settles O42: the result is the PC-relative address. -/
theorem leaGivesAddressAndFlag : Obligations.LeaGivesAddressAndFlag := by
  refine fun dr off s => ⟨_, rfl, ?_, s.flagOf_writeResult dr _, onlyResult_writeResult dr s _⟩
  rw [State.writeResult_x_same]
  exact effectiveAddressesAreModular.1 s off

/-! ### Stores, RTI and RES -/

/-- A write of memory changes no register, flag, output or control state. -/
theorem onlyMemAndInput_memWrite (s : State) (a v : Word) : OnlyMemAndInput s (s.memWrite a v) :=
  ⟨fun _ _ => rfl, rfl, rfl, rfl, rfl, rfl, rfl⟩

/-- Settles O44: both are one memory write. -/
theorem storesWriteOneCell : Obligations.StoresWriteOneCell :=
  ⟨fun _ _ s => ⟨_, rfl, s.memCell_memWrite_same _ _, s.memCell_memWrite_ne _ _, rfl, onlyMemAndInput_memWrite s _ _⟩,
    fun _ _ _ s => ⟨_, rfl, s.memCell_memWrite_same _ _, s.memCell_memWrite_ne _ _, rfl, onlyMemAndInput_memWrite s _ _⟩⟩

/-- Settles O45: a polling read, then a memory write at the word it returned. -/
theorem storeIndirectFollowsPointer : Obligations.StoreIndirectFollowsPointer := by
  intro sr off s
  refine ⟨(s.memRead (s.pcRel off)).1, (s.memRead (s.pcRel off)).2, _, rfl, readsAs_memRead _ s, polledAt_memRead _ s,
    State.memCell_memWrite_same _ _ _, State.memCell_memWrite_ne _ _ _, rfl, fun r _ => s.memRead_x _ r, s.memRead_pc _,
    s.memRead_cond _, s.memRead_output _, keepsControl_memRead _ s⟩

/-- Settles O55: the abort sets the run state and nothing else. -/
theorem reservedOpcodesAbort : Obligations.ReservedOpcodesAbort := fun _ =>
  ⟨⟨_, rfl, rfl, fun _ _ => rfl, rfl, rfl, fun _ => rfl, ⟨rfl, rfl⟩, rfl, rfl⟩,
    ⟨_, rfl, rfl, fun _ _ => rfl, rfl, rfl, fun _ => rfl, ⟨rfl, rfl⟩, rfl, rfl⟩⟩

end Sys2Proof.Machine
end

section
/-! PROOFS. TRAP (45_trap.md R150 to R158, 60_exceptions.md R199): the services one by one, the wait, and the table. -/

namespace Sys2Proof.Machine

/-! ### The word a wait ends with -/

/-- What taking the word `c` inside GETC or IN does to the state `s`, with the words of `rest` still to come: R0 and COND
are set, IN echoes the word, the core does not wait, and nothing else changes (R152, R155). -/
structure Delivered (p : WaitPoint) (c : Word) (rest : List InputWord) (s t : State) : Prop where
  r0 : t.x .r0 = c
  flag : FlagOf c t.cond
  regs : KeepsRegsBut [.r0] s t
  pc : t.pc = s.pc
  mem : KeepsMem s t
  input : t.input = rest
  output : t.output = s.output ++ if p = .inChar then [.char (c.setWidth 8), .flush] else []
  run : t.run = s.run
  wait : t.wait = none
  images : t.images = s.images

theorem State.delivered_receive (s : State) (p : WaitPoint) {k : InputWord} {rest : List InputWord}
    (h : s.input = k :: rest) : Delivered p k.word rest s (s.receive p) := by
  rw [State.receive_cons s p h]
  cases p with
  | getc =>
    exact ⟨State.writeResult_x_same _ _ _, flagOf_condOf k.word,
      fun r hr => State.writeResult_x_ne _ _ _ _ (by simpa using hr), rfl, fun _ => rfl, rfl, by simp [State.deliver],
      rfl, rfl, rfl⟩
  | inChar =>
    exact ⟨State.writeResult_x_same _ _ _, flagOf_condOf k.word,
      fun r hr => State.writeResult_x_ne _ _ _ _ (by simpa using hr), rfl, fun _ => rfl, rfl,
      by simp [State.deliver, lowByte_eq_setWidth], rfl, rfl, rfl⟩

/-- R7 is the link and R1 to R6 stay when a service that began after the link writes R0 at most. -/
theorem keepsRegsBut_after_link {s t : State} (h : KeepsRegsBut [.r0] s.link t) :
    t.x .r7 = s.pc ∧ KeepsRegsBut [.r0, .r7] s t := by
  refine ⟨(h .r7 (by decide)).trans (s.x_setReg_same .r7 s.pc), fun r hr => ?_⟩
  simp only [List.mem_cons, List.not_mem_nil, or_false, not_or] at hr
  rw [h r (by simpa using hr.1), keepsRegsBut_link s r (by simpa using hr.2)]

/-- Settles O47: after the link a word is delivered, or the core stands in the wait. -/
theorem getcTakesOneWordOrWaits : Obligations.GetcTakesOneWordOrWaits := by
  refine fun s => ⟨fun k rest hi => ⟨_, exec_getc s, ?_⟩, fun hi => ⟨_, exec_getc s, ?_⟩⟩
  · have hd := s.link.delivered_receive .getc hi
    obtain ⟨hr7, hregs⟩ := keepsRegsBut_after_link hd.regs
    exact ⟨hd.r0, hd.flag, hr7, hregs, hd.pc, hd.mem, hd.input, hd.output.trans (List.append_nil _), hd.run, hd.wait,
      hd.images⟩
  · rw [State.receive_nil s.link .getc hi]
    exact ⟨rfl, s.x_setReg_same .r7 s.pc, keepsRegsBut_link s, rfl, rfl, fun _ => rfl, ⟨rfl, rfl⟩, rfl, rfl⟩

/-- Settles O51: after the link and the prompt a word is delivered, or the core stands in the wait. -/
theorem inPromptsReadsAndEchoes : Obligations.InPromptsReadsAndEchoes := by
  refine fun s => ⟨fun k rest hi => ⟨_, exec_in s, ?_⟩, fun hi => ⟨_, exec_in s, ?_⟩⟩
  · have hd := (s.link.writeChars Config.inPrompt).delivered_receive .inChar hi
    obtain ⟨hr7, hregs⟩ := keepsRegsBut_after_link (s := s) hd.regs
    exact ⟨hd.output, hd.r0, hd.flag, hr7, hregs, hd.pc, hd.mem, hd.input, hd.run, hd.wait, hd.images⟩
  · rw [State.receive_nil (s.link.writeChars Config.inPrompt) .inChar hi]
    exact ⟨rfl, rfl, s.x_setReg_same .r7 s.pc, keepsRegsBut_link s, rfl, rfl, fun _ => rfl, hi, rfl, rfl⟩

/-- Settles O52: a step of a waiting core is `ReadChar` again. -/
theorem onlyAWordEndsAWait : Obligations.OnlyAWordEndsAWait := by
  refine fun s p hrun himg hwait => ⟨fun hi => ?_, fun hi n c => ⟨_, step_waiting (s.hostSends n c) hrun himg hwait, ?_⟩⟩
  · rw [step_waiting s hrun himg hwait, State.receive_nil s p hi, State.setWait, ← hwait]
  · have hone : (s.hostSends n c).input = ⟨n, c⟩ :: [] := by rw [State.hostSends, State.setInput_input, hi, List.nil_append]
    have hd := (s.hostSends n c).delivered_receive p hone
    exact ⟨hd.wait, hd.r0, hd.flag, hd.regs, hd.pc, hd.mem, hd.input, hd.run.trans hrun, hd.images, hd.output⟩

/-! ### The strings -/

theorem map_char_lowBytes (ws : List Word) :
    (ws.flatMap fun w => [lowByte w]).map ConsoleEvent.char = ws.map fun w => .char (w.setWidth 8) := by
  rw [← List.map_eq_flatMap, List.map_map]
  exact List.map_congr_left fun w _ => congrArg ConsoleEvent.char (lowByte_eq_setWidth w)

/-- The bytes a cell of a PUTSP string packs: the low one, and the high one unless it is zero (R156). -/
theorem map_char_packedBytes (w : Word) : (packedBytes w).map ConsoleEvent.char =
    .char (w.setWidth 8) :: if w.toNat / 256 = 0 then [] else [.char ((w >>> 8).setWidth 8)] := by
  have hzero : highByte w = 0x00 ↔ w.toNat / 256 = 0 := by
    rw [← highByte_toNat, ← BitVec.toNat_inj]
    rfl
  rw [← lowByte_eq_setWidth, ← highByte_eq_setWidth]
  by_cases h : highByte w = 0x00
  · rw [packedBytes, if_pos h, if_pos (hzero.mp h)]
    rfl
  · rw [packedBytes, if_neg h, if_neg fun h0 => h (hzero.mpr h0)]
    rfl

theorem map_char_flatMap_packedBytes (ws : List Word) : (ws.flatMap packedBytes).map ConsoleEvent.char =
    ws.flatMap fun w => .char (w.setWidth 8) :: if w.toNat / 256 = 0 then [] else [.char ((w >>> 8).setWidth 8)] := by
  simp only [List.map_flatMap, map_char_packedBytes]

/-- A string service writes the characters of the string at R0, flushes, and changes nothing else but R7 (R154, R156). -/
theorem serviceString_of_cells {s : State} {ws : List Word} (h : StringCells s (s.x .r0) ws) (f : Word → List Byte) :
    ∃ t, s.link.serviceString f = .next t ∧ t.output = s.output ++ (ws.flatMap f).map .char ++ [.flush] ∧
      t.x .r7 = s.pc ∧ KeepsRegsBut [.r7] s t ∧ t.pc = s.pc ∧ t.cond = s.cond ∧ KeepsMem s t ∧ t.input = s.input ∧
      KeepsControl s t :=
  ⟨_, State.serviceString_some s.link f (State.stringAt_of_cells s.link h), rfl, s.x_setReg_same .r7 s.pc,
    keepsRegsBut_link s, rfl, rfl, fun _ => rfl, rfl, rfl, rfl, rfl⟩

/-- Settles O49: the scan finds the string, and the service writes its characters. -/
theorem stringTrapsWriteTheString : Obligations.StringTrapsWriteTheString := by
  refine fun s ws h => ⟨?_, ?_⟩
  · rw [← map_char_lowBytes]
    exact serviceString_of_cells h _
  · rw [← map_char_flatMap_packedBytes]
    exact serviceString_of_cells h _

theorem stringAt_isSome_of_zero {s : State} {b : Word} (h : s.memCell b = 0x0000) (a : Word) :
    ∃ ws, StringCells s a ws ∧ s.stringAt a = some ws := by
  cases hs : s.stringAt a with
  | none => exact absurd h (State.stringAt_none s hs b)
  | some ws => exact ⟨ws, (State.stringWithin_some s hs).2, rfl⟩

theorem stringAt_none_of_no_zero {s : State} (h : ∀ a, s.memCell a ≠ 0x0000) (a : Word) : s.stringAt a = none := by
  cases hs : s.stringAt a with
  | none => rfl
  | some ws =>
    obtain ⟨-, -, hzero⟩ := State.stringWithin_some s hs
    exact absurd hzero (h _)

/-- Settles O50: the scan ends at the zero cell, or there is none. -/
theorem stringTrapsEndUnlessNoZeroCell : Obligations.StringTrapsEndUnlessNoZeroCell := by
  refine fun s => ⟨fun ⟨b, hb⟩ => ?_, fun h => ?_⟩
  · obtain ⟨ws, hcells, hscan⟩ := stringAt_isSome_of_zero hb (s.x .r0)
    obtain ⟨⟨t, hputs, -⟩, ⟨u, hputsp, -⟩⟩ := stringTrapsWriteTheString s ws hcells
    exact ⟨⟨ws, hcells, hscan⟩, ⟨t, hputs⟩, ⟨u, hputsp⟩⟩
  · have hscan := stringAt_none_of_no_zero (s := s.link) h (s.link.x .r0)
    exact ⟨State.serviceString_none s.link _ hscan, State.serviceString_none s.link _ hscan⟩

/-! ### The other services -/

/-- Settles O48: the link, one byte and a flush. -/
theorem outWritesLowByte : Obligations.OutWritesLowByte := by
  refine fun s => ⟨_, exec_out s, ⟨lowByte (s.x .r0), ?_, ?_⟩, s.x_setReg_same .r7 s.pc, keepsRegsBut_link s, rfl, rfl,
    fun _ => rfl, rfl, rfl, rfl, rfl⟩
  · rw [lowByte_eq_setWidth, BitVec.toNat_setWidth]
  · simp

/-- Settles O53: the link, the notice, a flush and HALTED. -/
theorem haltWritesNoticeAndHalts : Obligations.HaltWritesNoticeAndHalts := fun s =>
  ⟨_, exec_halt s, rfl, rfl, s.x_setReg_same .r7 s.pc, keepsRegsBut_link s, rfl, rfl, fun _ => rfl, rfl, rfl, rfl⟩

/-- Settles O46: the link alone. -/
theorem unknownTrapOnlyLinks : Obligations.UnknownTrapOnlyLinks := fun _ s hv =>
  ⟨_, exec_unknown s hv, s.x_setReg_same .r7 s.pc, rfl, keepsRegsBut_link s, rfl, fun _ => rfl, ⟨rfl, rfl⟩, rfl, rfl, rfl⟩

/-! ### The table -/

section
variable {s t : State}

/-- The columns every vector shares: memory and pc stay, R7 is the link, R1 to R6 stay (R150, R151). -/
theorem trap_frame {v : Byte} (h : exec (.trap v) s = .next t) :
    KeepsMem s t ∧ t.pc = s.pc ∧ t.x .r7 = s.pc ∧ ∀ r, r ≠ .r0 → r ≠ .r7 → t.x r = s.x r := by
  refine ⟨fun a => congrArg (Memory.get · a) (trap_keeps_mem h), trap_keeps_pc h, trap_links h, fun r h0 h7 => ?_⟩
  have hlink := keepsRegsBut_link s r (by simpa using h7)
  obtain ⟨o, rfl⟩ | ⟨-, o, rfl⟩ | ⟨-, -, o, p, rfl⟩ | ⟨-, k, rest, o, -, rfl⟩ := trap_next s h
  · exact hlink
  · exact hlink
  · exact hlink
  · exact (State.writeResult_x_ne _ _ _ _ h0).trans hlink

/-- GETC and IN take one word into R0 and COND, or wait for it (R152, R155, R199). -/
theorem trap_input {v : Byte} (hv : v = 0x20 ∨ v = 0x23) (h : exec (.trap v) s = .next t) :
    (∀ k rest, s.input = k :: rest → t.x .r0 = k.word ∧ FlagOf k.word t.cond ∧ t.input = rest ∧ t.wait = none) ∧
    (s.input = [] → t.x .r0 = s.x .r0 ∧ t.cond = s.cond ∧ t.input = [] ∧
      t.wait = some (if v = 0x20 then .getc else .inChar)) := by
  rcases hv with rfl | rfl
  · obtain ⟨hword, hnone⟩ := getcTakesOneWordOrWaits s
    refine ⟨fun k rest hi => ?_, fun hi => ?_⟩
    · obtain ⟨t', h', hr0, hflag, -, -, -, -, hin, -, -, hwait, -⟩ := hword k rest hi
      obtain rfl := Host.Outcome.next.inj (h'.symm.trans h)
      exact ⟨hr0, hflag, hin, hwait⟩
    · obtain ⟨t', h', hwait, -, hregs, -, hcond, -, ⟨hin, -⟩, -⟩ := hnone hi
      obtain rfl := Host.Outcome.next.inj (h'.symm.trans h)
      exact ⟨hregs .r0 (by decide), hcond, hin.trans hi, hwait⟩
  · obtain ⟨hword, hnone⟩ := inPromptsReadsAndEchoes s
    refine ⟨fun k rest hi => ?_, fun hi => ?_⟩
    · obtain ⟨t', h', -, hr0, hflag, -, -, -, -, hin, -, hwait, -⟩ := hword k rest hi
      obtain rfl := Host.Outcome.next.inj (h'.symm.trans h)
      exact ⟨hr0, hflag, hin, hwait⟩
    · obtain ⟨t', h', hwait, -, -, hregs, -, hcond, -, hin, -⟩ := hnone hi
      obtain rfl := Host.Outcome.next.inj (h'.symm.trans h)
      exact ⟨hregs .r0 (by decide), hcond, hin, hwait⟩

/-- The other vectors leave R0, COND, input and wait alone. -/
theorem trap_without_input {v : Byte} (h20 : v ≠ 0x20) (h23 : v ≠ 0x23) (h : exec (.trap v) s = .next t) :
    t.x .r0 = s.x .r0 ∧ t.cond = s.cond ∧ t.input = s.input ∧ t.wait = s.wait := by
  have hv : ¬ (v = 0x20 ∨ v = 0x23) := not_or.mpr ⟨h20, h23⟩
  obtain ⟨o, rfl⟩ | ⟨-, o, rfl⟩ | ⟨hv', -⟩ | ⟨hv', -⟩ := trap_next s h
  · exact ⟨rfl, rfl, rfl, rfl⟩
  · exact ⟨rfl, rfl, rfl, rfl⟩
  · exact absurd hv' hv
  · exact absurd hv' hv

/-- HALT alone writes the run state (R157). -/
theorem trap_keeps_run {v : Byte} (hv : v ≠ 0x25) (h : exec (.trap v) s = .next t) : t.run = s.run := by
  obtain ⟨o, rfl⟩ | ⟨hv', -⟩ | ⟨-, -, o, p, rfl⟩ | ⟨-, k, rest, o, -, rfl⟩ := trap_next s h
  · rfl
  · exact absurd hv' hv
  · rfl
  · rfl

theorem getc_output (h : exec (.trap 0x20) s = .next t) : t.output = s.output := by
  obtain ⟨hword, hnone⟩ := getcTakesOneWordOrWaits s
  cases hi : s.input with
  | nil =>
    obtain ⟨t', h', -, -, -, -, -, -, ⟨-, hout⟩, -⟩ := hnone hi
    obtain rfl := Host.Outcome.next.inj (h'.symm.trans h)
    exact hout
  | cons k rest =>
    obtain ⟨t', h', -, -, -, -, -, -, -, hout, -⟩ := hword k rest hi
    obtain rfl := Host.Outcome.next.inj (h'.symm.trans h)
    exact hout

theorem in_output (h : exec (.trap 0x23) s = .next t) : t.output = s.output ++ Config.inPrompt.map .char ++
    match s.input with
    | k :: _ => [.char (k.word.setWidth 8), .flush]
    | [] => [] := by
  obtain ⟨hword, hnone⟩ := inPromptsReadsAndEchoes s
  cases hi : s.input with
  | nil =>
    obtain ⟨t', h', -, hout, -⟩ := hnone hi
    obtain rfl := Host.Outcome.next.inj (h'.symm.trans h)
    exact hout.trans (List.append_nil _).symm
  | cons k rest =>
    obtain ⟨t', h', hout, -⟩ := hword k rest hi
    obtain rfl := Host.Outcome.next.inj (h'.symm.trans h)
    exact hout

theorem out_output (h : exec (.trap 0x21) s = .next t) :
    ∃ b : Byte, b.toNat = (s.x .r0).toNat % 256 ∧ t.output = s.output ++ [.char b, .flush] := by
  obtain ⟨t', h', hout, -⟩ := outWritesLowByte s
  obtain rfl := Host.Outcome.next.inj (h'.symm.trans h)
  exact hout

/-- A string service that answers a next state has written the characters of a string at R0. -/
theorem string_output {f : Word → List Byte} (h : s.link.serviceString f = .next t) :
    ∃ ws, StringCells s (s.x .r0) ws ∧ t.output = s.output ++ (ws.flatMap f).map .char ++ [.flush] := by
  obtain ⟨ws, hcells, rfl⟩ := State.serviceString_next s.link h
  exact ⟨ws, hcells, rfl⟩

theorem halt_output (h : exec (.trap 0x25) s = .next t) :
    t.output = s.output ++ Config.haltNotice.map .char ++ [.flush] ∧ t.run = .halted := by
  obtain rfl := Host.Outcome.next.inj ((exec_halt s).symm.trans h)
  exact ⟨rfl, rfl⟩

theorem unknown_output {v : Byte} (hv : v.toNat < 0x20 ∨ 0x25 < v.toNat) (h : exec (.trap v) s = .next t) :
    t.output = s.output := by
  obtain rfl := Host.Outcome.next.inj ((exec_unknown s hv).symm.trans h)
  rfl

end

/-- Settles O54: the table row by row. -/
theorem trapTableHolds : Obligations.TrapTableHolds := by
  refine fun v s t h => ⟨trap_frame h, fun hv => trap_input hv h, fun h20 h23 => trap_without_input h20 h23 h,
    ?_, ?_, ?_, ?_, ?_, ?_, fun hv => unknown_output hv h, fun hv => trap_keeps_run hv h⟩ <;> rintro rfl
  · exact getc_output h
  · exact out_output h
  · simp only [← map_char_lowBytes]
    exact string_output h
  · exact in_output h
  · simp only [← map_char_flatMap_packedBytes]
    exact string_output h
  · exact halt_output h

end Sys2Proof.Machine
end

section
/-! PROOFS. The general registers (10_state.md R21): which instruction writes which, and that an instruction does not depend
on one it is not listed to read. A write of a register commutes with every operation that does not read or write it. -/

namespace Sys2Proof.Machine

/-! ### What an instruction writes -/

section
variable {s t : State}

/-- TRAP writes R7, and GETC and IN also R0 (R21). -/
theorem mem_writesRegs_trap {v : Byte} {r : Reg} :
    r ∈ writesRegs (.trap v) ↔ r = .r7 ∨ r = .r0 ∧ (v = 0x20 ∨ v = 0x23) := by
  show r ∈ (if v = 0x20 ∨ v = 0x23 then [.r7, .r0] else [.r7]) ↔ _
  split
  · next hv => rw [List.mem_cons, List.mem_singleton, and_iff_left hv]
  · next hv => rw [List.mem_singleton, or_iff_left fun h => hv h.2]

theorem trap_keeps_regs {v : Byte} (h : exec (.trap v) s = .next t) : KeepsRegsBut (writesRegs (.trap v)) s t := by
  intro r hr
  rw [mem_writesRegs_trap, not_or, not_and] at hr
  obtain ⟨h7, h0⟩ := hr
  by_cases hr0 : r = .r0
  · obtain ⟨h20, h23⟩ := not_or.mp (h0 hr0)
    rw [hr0, (trap_without_input h20 h23 h).1]
  · obtain ⟨-, -, -, hframe⟩ := trap_frame h
    exact hframe r hr0 h7

theorem exec_keeps_regs {i : Instr} (h : exec i s = .next t) : KeepsRegsBut (writesRegs i) s t := by
  cases i with
  | addReg d | addImm d | andReg d | andImm d | not d | lea d =>
    obtain rfl := Host.Outcome.next.inj h
    exact (onlyResult_writeResult d s _).1
  | ld d | ldr d =>
    obtain rfl := Host.Outcome.next.inj h
    exact (onlyLoaded_memRead_writeResult s _ d _).1
  | ldi d off =>
    obtain ⟨-, -, t', h', -, -, -, -, -, hregs, -⟩ := loadIndirectFollowsPointer d off s
    obtain rfl := Host.Outcome.next.inj (h'.symm.trans h)
    exact hregs
  | br c off =>
    obtain ⟨t', h', -, -, hregs, -⟩ := branchTestsOneFlag c off s
    obtain rfl := Host.Outcome.next.inj (h'.symm.trans h)
    exact hregs
  | jsr | jsrr =>
    obtain rfl := Host.Outcome.next.inj h
    exact keepsRegsBut_link s
  | sti =>
    obtain rfl := Host.Outcome.next.inj h
    exact fun r _ => s.memRead_x _ r
  | jmp | st | str | rti | res =>
    obtain rfl := Host.Outcome.next.inj h
    exact fun _ _ => rfl
  | trap v => exact trap_keeps_regs h

end

/-- Settles O18: the register file's read-after-write law, and the writes of each instruction. -/
theorem registersChangeOnlyAsListed : Obligations.RegistersChangeOnlyAsListed :=
  ⟨State.x_setReg, fun _ _ _ => exec_keeps_regs⟩

/-! ### A write of a register and the operations -/

/-- The eight registers are all a register file holds. -/
theorem RegFile.eq_of_get_eq {f g : RegFile} (h : ∀ r, f.get r = g.get r) : f = g := by
  cases f
  cases g
  exact RegFile.mk.injEq .. ▸ ⟨h .r0, h .r1, h .r2, h .r3, h .r4, h .r5, h .r6, h .r7⟩

theorem RegFile.set_set (f : RegFile) (r : Reg) (v w : Word) : (f.set r v).set r w = f.set r w := by
  refine RegFile.eq_of_get_eq fun p => ?_
  simp only [RegFile.get_set]
  split <;> rfl

theorem RegFile.set_comm (f : RegFile) {r q : Reg} (h : q ≠ r) (v w : Word) :
    (f.set r v).set q w = (f.set q w).set r v := by
  refine RegFile.eq_of_get_eq fun p => ?_
  simp only [RegFile.get_set]
  by_cases hq : p = q
  · rw [if_pos hq, if_neg (hq ▸ h), if_pos hq]
  · rw [if_neg hq, if_neg hq]

section
variable (s : State) (r : Reg) (v : Word)

theorem State.setReg_setReg (w : Word) : (s.setReg r v).setReg r w = s.setReg r w := by
  simp [State.setReg, RegFile.set_set]

theorem State.setReg_comm {q : Reg} (h : q ≠ r) (w : Word) : (s.setReg r v).setReg q w = (s.setReg q w).setReg r v := by
  simp [State.setReg, RegFile.set_comm _ h]

/-- A write of a result covers an earlier write of its register. -/
theorem State.writeResult_setReg_same (w : Word) : (s.setReg r v).writeResult r w = s.writeResult r w := by
  rw [State.writeResult_eq, State.writeResult_eq, State.setReg_setReg]

theorem State.writeResult_setReg_ne {q : Reg} (h : q ≠ r) (w : Word) :
    (s.setReg r v).writeResult q w = (s.writeResult q w).setReg r v := by
  rw [State.writeResult_eq, State.writeResult_eq, State.setReg_comm s r v h]
  rfl

theorem State.link_setReg_r7 : (s.setReg .r7 v).link = s.link := State.setReg_setReg s .r7 v s.pc

theorem State.link_setReg_ne (h : r ≠ .r7) : (s.setReg r v).link = s.link.setReg r v := State.setReg_comm s r v h.symm s.pc

theorem State.pollMissed_setReg : (s.setReg r v).pollMissed = s.pollMissed.setReg r v := by
  cases h : s.input with
  | nil => simp [State.pollMissed, h]
  | cons k rest =>
    simp only [State.pollMissed, State.setReg_input, h]
    rfl

theorem State.poll_setReg : (s.setReg r v).poll = s.poll.setReg r v := by
  cases h : s.keyAvailable with
  | true =>
    obtain ⟨c, rest, hi⟩ := (State.keyAvailable_iff s).mp h
    rw [State.poll_key s hi, State.poll_key (s.setReg r v) hi]
    rfl
  | false =>
    rw [State.poll_none s h, State.poll_none (s.setReg r v) h, State.pollMissed_setReg]
    rfl

/-- A polling read neither reads nor writes a register. -/
theorem State.memRead_setReg (a : Word) :
    (s.setReg r v).memRead a = ((s.memRead a).1, (s.memRead a).2.setReg r v) := by
  unfold State.memRead
  split
  · rw [State.poll_setReg]
    rfl
  · rfl

theorem State.deliver_setReg_ne (p : WaitPoint) (c : Word) (h : r ≠ .r0) :
    (s.setReg r v).deliver p c = (s.deliver p c).setReg r v := by
  cases p with
  | getc => exact State.writeResult_setReg_ne s r v h.symm c
  | inChar => exact State.writeResult_setReg_ne ((s.writeChar (lowByte c)).flush) r v h.symm c

theorem State.deliver_setReg_r0 (p : WaitPoint) (c : Word) : (s.setReg .r0 v).deliver p c = s.deliver p c := by
  cases p with
  | getc => exact State.writeResult_setReg_same s .r0 v c
  | inChar => exact State.writeResult_setReg_same ((s.writeChar (lowByte c)).flush) .r0 v c

/-- A wait touches R0 only. -/
theorem State.receive_setReg_ne (p : WaitPoint) (h : r ≠ .r0) :
    (s.setReg r v).receive p = (s.receive p).setReg r v := by
  cases hi : s.input with
  | nil =>
    rw [State.receive_nil s p hi, State.receive_nil (s.setReg r v) p hi]
    rfl
  | cons k rest =>
    rw [State.receive_cons s p hi, State.receive_cons (s.setReg r v) p hi, ← State.deliver_setReg_ne _ r v p _ h]
    rfl

/-- With a word to come R0 is overwritten. -/
theorem State.receive_setReg_r0 (p : WaitPoint) (h : s.input ≠ []) : (s.setReg .r0 v).receive p = s.receive p := by
  obtain ⟨k, rest, hi⟩ := List.exists_cons_of_ne_nil h
  rw [State.receive_cons s p hi, State.receive_cons (s.setReg .r0 v) p hi, ← State.deliver_setReg_r0 _ v]
  rfl

/-- With none R0 is left for the write still to be made. -/
theorem State.receive_setReg_r0_nil (p : WaitPoint) (h : s.input = []) :
    (s.setReg .r0 v).receive p = (s.receive p).setReg .r0 v := by
  rw [State.receive_nil s p h, State.receive_nil (s.setReg .r0 v) p h]
  rfl

/-- The string services read R0 only. -/
theorem State.serviceString_setReg (h : r ≠ .r0) (f : Word → List Byte) :
    (s.setReg r v).serviceString f = mapNext (·.setReg r v) (s.serviceString f) := by
  have hscan : (s.setReg r v).stringAt ((s.setReg r v).x .r0) = s.stringAt (s.x .r0) := by
    rw [State.x_setReg_ne s r .r0 v h.symm]
    exact State.stringAt_congr s (State.setReg_memCell s r v) _
  cases hs : s.stringAt (s.x .r0) with
  | none => rw [State.serviceString_none s f hs, State.serviceString_none _ f (hscan.trans hs), mapNext_fault]
  | some ws =>
    rw [State.serviceString_some s f hs, State.serviceString_some _ f (hscan.trans hs), mapNext_next]
    rfl

/-! ### TRAP -/

/-- TRAP sees the state only as the link leaves it. -/
theorem exec_trap_congr {s u : State} (h : s.link = u.link) (vect : Byte) : exec (.trap vect) s = exec (.trap vect) u := by
  simp only [exec, execTrap, h]

theorem exec_trap_setReg_unrelated {vect : Byte} (hread : r ∉ readsRegs (.trap vect)) (hwrite : r ∉ writesRegs (.trap vect)) :
    exec (.trap vect) (s.setReg r v) = mapNext (·.setReg r v) (exec (.trap vect) s) := by
  have h7 : r ≠ .r7 := fun e => hwrite (mem_writesRegs_trap.mpr (.inl e))
  have hl := State.link_setReg_ne s r v h7
  rcases trap_vector_cases vect with rfl | rfl | rfl | rfl | rfl | rfl | h | h
  · have h0 : r ≠ .r0 := fun e => hwrite (by rw [e]; decide)
    rw [exec_getc, exec_getc, hl, State.receive_setReg_ne _ r v _ h0, mapNext_next]
  · have h0 : r ≠ .r0 := fun e => hread (by rw [e]; decide)
    rw [exec_out, exec_out, hl, State.x_setReg_ne _ r .r0 v h0.symm, mapNext_next]
    rfl
  · have h0 : r ≠ .r0 := fun e => hread (by rw [e]; decide)
    rw [exec_puts, exec_puts, hl, State.serviceString_setReg _ r v h0]
  · have h0 : r ≠ .r0 := fun e => hwrite (by rw [e]; decide)
    rw [exec_in, exec_in, hl, mapNext_next]
    exact congrArg _ (State.receive_setReg_ne (s.link.writeChars Config.inPrompt) r v .inChar h0)
  · have h0 : r ≠ .r0 := fun e => hread (by rw [e]; decide)
    rw [exec_putsp, exec_putsp, hl, State.serviceString_setReg _ r v h0]
  · rw [exec_halt, exec_halt, hl, mapNext_next]
    rfl
  · rw [exec_unknown _ (.inl h), exec_unknown _ (.inl h), hl, mapNext_next]
  · rw [exec_unknown _ (.inr h), exec_unknown _ (.inr h), hl, mapNext_next]

theorem exec_trap_setReg_written {vect : Byte} (hwrite : r ∈ writesRegs (.trap vect))
    (hin : ReadsChar (.trap vect) → r = .r0 → s.input ≠ []) : exec (.trap vect) (s.setReg r v) = exec (.trap vect) s := by
  rcases mem_writesRegs_trap.mp hwrite with rfl | ⟨rfl, hv⟩
  · exact exec_trap_congr (State.link_setReg_r7 s v) vect
  · have hl := State.link_setReg_ne s .r0 v (by decide)
    have hs : s.input ≠ [] := hin ((readsChar_trap_iff vect).mpr hv) rfl
    rcases hv with rfl | rfl
    · rw [exec_getc, exec_getc, hl, State.receive_setReg_r0 s.link v _ hs]
    · rw [exec_in, exec_in, hl]
      exact congrArg _ (State.receive_setReg_r0 (s.link.writeChars Config.inPrompt) v .inChar hs)

theorem exec_readsChar_setReg_r0 {i : Instr} (hi : ReadsChar i) (hin : s.input = []) :
    exec i (s.setReg .r0 v) = mapNext (·.setReg .r0 v) (exec i s) := by
  have hl := State.link_setReg_ne s .r0 v (by decide)
  rcases hi with rfl | rfl
  · rw [exec_getc, exec_getc, hl, State.receive_setReg_r0_nil s.link v _ hin, mapNext_next]
  · rw [exec_in, exec_in, hl, mapNext_next]
    exact congrArg _ (State.receive_setReg_r0_nil (s.link.writeChars Config.inPrompt) v .inChar hin)

/-! ### Every instruction -/

@[simp] theorem State.pcRel_setReg {n : Nat} (off : BitVec n) : (s.setReg r v).pcRel off = s.pcRel off := rfl

@[simp] theorem State.branchTaken_setReg (c : BitVec 3) : (s.setReg r v).branchTaken c = s.branchTaken c := rfl

@[simp] theorem State.setPc_setReg (w : Word) : (s.setReg r v).setPc w = (s.setPc w).setReg r v := rfl

@[simp] theorem State.memWrite_setReg (a w : Word) : (s.setReg r v).memWrite a w = (s.memWrite a w).setReg r v := rfl

/-- A register an instruction neither reads nor writes passes through it. -/
theorem exec_setReg_unrelated {i : Instr} (hread : r ∉ readsRegs i) (hwrite : r ∉ writesRegs i) :
    exec i (s.setReg r v) = mapNext (·.setReg r v) (exec i s) := by
  have hx : ∀ q ∈ readsRegs i, (s.setReg r v).x q = s.x q :=
    fun q hq => s.x_setReg_ne r q v fun e => hread (e ▸ hq)
  have hw : ∀ q ∈ writesRegs i, ∀ (u : State) (w : Word), (u.setReg r v).writeResult q w = (u.writeResult q w).setReg r v :=
    fun q hq u w => u.writeResult_setReg_ne r v (fun e => hwrite (e ▸ hq)) w
  cases i with
  | rti | res => rfl
  | addReg | addImm | andReg | andImm | not | lea =>
    simp only [readsRegs, writesRegs, List.forall_mem_cons] at hx hw
    simp [exec, execAddReg, execAddImm, execAndReg, execAndImm, execNot, execLea, hx, hw]
  | ld | ldi | ldr =>
    simp only [readsRegs, writesRegs, List.forall_mem_singleton] at hx hw
    simp [exec, execLd, execLdi, execLdr, State.baseOff, State.memRead_setReg, hx, hw]
  | st | sti | str =>
    simp only [readsRegs, List.forall_mem_cons] at hx
    simp [exec, execSt, execSti, execStr, State.baseOff, State.memRead_setReg, hx]
  | br c off => cases h : s.branchTaken c <;> simp [exec, execBr, h]
  | jmp b =>
    simp only [readsRegs, List.forall_mem_singleton] at hx
    simp [exec, execJmp, hx]
  | jsr off =>
    have hl := State.link_setReg_ne s r v (by simpa [writesRegs] using hwrite)
    simp only [exec, execJsr, hl, State.pcRel_setReg, State.setPc_setReg, mapNext_next]
  | jsrr b =>
    have hl := State.link_setReg_ne s r v (by simpa [writesRegs] using hwrite)
    have hb : b ≠ r := Ne.symm (by simpa [readsRegs] using hread)
    simp only [exec, execJsrr, hl, State.x_setReg_ne _ r b v hb, State.setPc_setReg, mapNext_next]
  | trap vect => exact exec_trap_setReg_unrelated s r v hread hwrite

/-- A register an instruction writes without reading it may hold anything before. -/
theorem exec_setReg_written {i : Instr} (hread : r ∉ readsRegs i) (hwrite : r ∈ writesRegs i)
    (hin : ReadsChar i → r = .r0 → s.input ≠ []) : exec i (s.setReg r v) = exec i s := by
  have hx : ∀ q ∈ readsRegs i, (s.setReg r v).x q = s.x q :=
    fun q hq => s.x_setReg_ne r q v fun e => hread (e ▸ hq)
  cases i with
  | addReg | addImm | andReg | andImm | not | lea =>
    obtain rfl := List.mem_singleton.mp hwrite
    simp only [readsRegs, List.forall_mem_cons] at hx
    simp [exec, execAddReg, execAddImm, execAndReg, execAndImm, execNot, execLea, State.writeResult_setReg_same, hx]
  | ldi | ldr =>
    obtain rfl := List.mem_singleton.mp hwrite
    simp only [readsRegs, List.forall_mem_singleton] at hx
    simp [exec, execLdi, execLdr, State.baseOff, State.memRead_setReg, State.writeResult_setReg_same, hx]
  | ld => exact absurd hwrite hread
  | jsr | jsrr =>
    obtain rfl := List.mem_singleton.mp hwrite
    simp only [exec, execJsr, execJsrr, State.link_setReg_r7, State.pcRel_setReg]
  | br | st | sti | str | jmp | rti | res => cases hwrite
  | trap vect => exact exec_trap_setReg_written s r v hwrite hin

end

/-- Settles O19: by what the instruction does with the register. -/
theorem unreadRegistersDoNotMatter : Obligations.UnreadRegistersDoNotMatter := by
  refine fun i r v s hread => ⟨exec_setReg_unrelated s r v hread, exec_setReg_written s r v hread, ?_⟩
  rintro hi rfl hin
  exact exec_readsChar_setReg_r0 s v hi hin

end Sys2Proof.Machine
end

section
/-! PROOFS. Reset and the step (10_state.md R27, R31, 40_fetch_decode_step.md R100 to R104): what a step fetches and runs,
where it faults, what it does to the run state and the console input, and the invariant every step keeps. -/

namespace Sys2Proof.Machine

/-! ### Reset -/

/-- Settles O8: every register is written out in `State.reset`, and no cell is listed. -/
theorem resetLeavesStatedValues : Obligations.ResetLeavesStatedValues :=
  ⟨fun r => by cases r <;> rfl, rfl, rfl, rfl, fun _ => rfl⟩

/-- Settles O9: memory is empty, and the core neither waits nor has left RUNNING, whatever the images are. -/
theorem resetMeetsInvariant : Obligations.ResetMeetsInvariant := by
  have boot (images : List Image) : (State.boot images).Inv :=
    ⟨reset_mem_wf, fun h => absurd rfl h, fun h => RunState.noConfusion h, fun h => absurd rfl h⟩
  exact ⟨boot [], boot⟩

section
variable {s t : State}

/-! ### The fetch -/

/-- The fetch polls as a read of the address in pc does (R100, D11). -/
theorem readsAs_fetch (s : State) : ReadsAs s.pc s s.fetch.1 := readsAs_memRead s.pc s

theorem polledAt_fetch (s : State) : PolledAt s.pc s s.fetch.2 := polledAt_memRead s.pc s

theorem keepsControl_fetch (s : State) : KeepsControl s s.fetch.2 := ⟨s.fetch_run, s.fetch_wait, s.fetch_images⟩

theorem step_eq_exec (h : s.Ready) : step s = exec (decode s.fetch.1) s.fetch.2 := step_ready s h

/-- Away from KBSR the step runs what the cell at pc decodes to, with pc moved on and nothing else changed (R100). -/
theorem step_runs_cell {a : Word} {i : Instr} (h : s.Ready) (hpc : s.pc = a) (hne : a ≠ 0xFE00)
    (hi : decode (s.memCell a) = i) : step s = exec i (s.setPc (a + 1)) := by
  subst hpc
  rw [step_eq_exec h, State.fetch_ne s hne, hi]

end

/-- Settles O11: the fetch is a polling read and an increment of pc. -/
theorem stepRunsDecodedInstruction : Obligations.StepRunsDecodedInstruction := by
  refine fun s h => ⟨s.fetch.1, s.fetch.2, step_eq_exec h, readsAs_fetch s, polledAt_fetch s, BitVec.toNat_add s.pc 1,
    fun r _ => s.fetch_x r, s.fetch_cond, s.fetch_output, keepsControl_fetch s, fun hpc => ?_⟩
  rw [State.fetch_ne s hpc]
  exact ⟨rfl, rfl⟩

/-- Settles O12: the placed word is the cell at pc. -/
theorem fetchWordIsRunNext : Obligations.FetchWordIsRunNext := by
  intro s nbits w i hpc hi
  have hdecode : decode (tableWord nbits w) = i := by
    unfold decodeTableWord at hi
    split at hi
    · exact Option.some.inj hi
    · cases hi
  have hcell : (s.withFetchWord nbits w).memCell s.pc = tableWord nbits w :=
    State.memCell_memWrite_same _ _ _
  exact step_runs_cell ⟨rfl, rfl, rfl⟩ rfl hpc (by rw [hcell, hdecode])

/-- Settles O13: the status word with a key ready is an RTI, without one a BR that tests no flag. -/
theorem fetchFromKeyboardStatus : Obligations.FetchFromKeyboardStatus := by
  intro s h hpc
  have hread := (readsAs_fetch s).1 hpc
  have hpolled : PolledAt 0xFE00 s s.fetch.2 := hpc ▸ polledAt_fetch s
  have hnext : s.fetch.2.pc = 0xFE01 := by rw [State.fetch_pc, hpc]; decide
  refine ⟨fun c rest hk => ⟨s.fetch.2.abort .rti, ?_, rfl, hnext, fun r _ => s.fetch_x r, s.fetch_cond, s.fetch_output,
      hpolled⟩,
    fun hn => ⟨s.fetch.2, ?_, s.fetch_run.trans h.1, hnext, fun r _ => s.fetch_x r, s.fetch_cond, s.fetch_output, hpolled⟩⟩
  · rw [step_eq_exec h, hread.1 c rest hk, show decode 0x8000 = .rti by decide]
    rfl
  · rw [step_eq_exec h, hread.2 hn, show decode 0x0000 = .br 0 0 by decide]
    exact exec_br_not_taken 0 (by simp [State.branchTaken])

/-- Settles O14: the first two arms of the step, and the opcode map. -/
theorem haltedAndAbortedAreTerminal : Obligations.HaltedAndAbortedAreTerminal :=
  ⟨step_halted, fun s _ => step_aborted s, rfl, rfl⟩

/-! ### Two steps in a row -/

/-- Settles O17: the store's address is the incremented pc, where the second step fetches. -/
theorem storeIsSeenByNextFetch : Obligations.StoreIsSeenByNextFetch := by
  intro s sr h hpc hpc1 hst
  have haddr : (s.setPc (s.pc + 1)).pcRel (0 : BitVec 9) = s.pc + 1 := BitVec.add_zero _
  have hstore : step s = .next ((s.setPc (s.pc + 1)).memWrite (s.pc + 1) (s.x sr)) :=
    (step_runs_cell h rfl hpc hst).trans
      (congrArg (fun a => Host.Outcome.next ((s.setPc (s.pc + 1)).memWrite a (s.x sr))) haddr)
  have hrun := step_runs_cell (s := (s.setPc (s.pc + 1)).memWrite (s.pc + 1) (s.x sr)) (a := s.pc + 1) h rfl hpc1
    (congrArg decode (State.memCell_memWrite_same _ _ _))
  rw [BitVec.add_assoc] at hrun
  exact ⟨_, hstore, hrun⟩

/-- Settles O38: the JSR leaves the link in R7, and the RET jumps to it. -/
theorem callThenReturnComesBack : Obligations.CallThenReturnComesBack := by
  intro s off h hpc hjsr htarget hret
  have hcall : step s = .next ((s.setPc (s.pc + 1)).link.setPc (s.pc + 1 + sext off)) := step_runs_cell h rfl hpc hjsr
  have hreturn := step_runs_cell (s := (s.setPc (s.pc + 1)).link.setPc (s.pc + 1 + sext off)) h rfl htarget hret
  exact ⟨_, _, hcall, hreturn, rfl, rfl, keepsRegsBut_link (s.setPc (s.pc + 1)), rfl, fun _ => rfl⟩

/-! ### Faults -/

section
variable {s t : State}

/-- An instruction answers a next state, but PUTS and PUTSP where no cell of memory is zero (R103). -/
theorem exec_ends (i : Instr) (s : State) : (∃ t, exec i s = .next t) ∨
    ((i = .trap 0x22 ∨ i = .trap 0x24) ∧ (∀ a, s.memCell a ≠ 0x0000) ∧ exec i s = .fault .stringNeverEnds) := by
  have string (hi : i = .trap 0x22 ∨ i = .trap 0x24) : (∃ t, exec i s = .next t) ∨
      ((i = .trap 0x22 ∨ i = .trap 0x24) ∧ (∀ a, s.memCell a ≠ 0x0000) ∧ exec i s = .fault .stringNeverEnds) := by
    obtain ⟨hzero, hnone⟩ := stringTrapsEndUnlessNoZeroCell s
    by_cases hz : ∃ a, s.memCell a = 0x0000
    · obtain ⟨-, hputs, hputsp⟩ := hzero hz
      exact .inl (hi.elim (fun e => e ▸ hputs) fun e => e ▸ hputsp)
    · have hz' := not_exists.mp hz
      obtain ⟨hputs, hputsp⟩ := hnone hz'
      exact .inr ⟨hi, hz', hi.elim (fun e => e ▸ hputs) fun e => e ▸ hputsp⟩
  cases i with
  | trap v =>
    rcases trap_vector_cases v with rfl | rfl | rfl | rfl | rfl | rfl | h | h
    · exact .inl ⟨_, exec_getc s⟩
    · exact .inl ⟨_, exec_out s⟩
    · exact string (.inl rfl)
    · exact .inl ⟨_, exec_in s⟩
    · exact string (.inr rfl)
    · exact .inl ⟨_, exec_halt s⟩
    · exact .inl ⟨_, exec_unknown s (.inl h)⟩
    · exact .inl ⟨_, exec_unknown s (.inr h)⟩
  | _ => exact .inl ⟨_, rfl⟩

end

/-- What the answer of a step says of the state it began in: each fault has its place, and there is no refusal (R103, R192). -/
def State.Explains (s : State) : Host.Outcome State Fault Refusal → Prop
  | .next _ => True
  | .fault (.aborted c) => s.run = .aborted c
  | .fault .imageLoadError => s.run = .running ∧ s.images.head? = some .unavailable
  | .fault .stringNeverEnds =>
    s.Ready ∧ (decode s.fetch.1 = .trap 0x22 ∨ decode s.fetch.1 = .trap 0x24) ∧ ∀ a, s.fetch.2.memCell a ≠ 0x0000
  | .refused _ => False

theorem step_explained (s : State) : s.Explains (step s) := by
  cases hr : s.run with
  | halted =>
    rw [step_halted s hr]
    trivial
  | aborted c =>
    rw [step_aborted s hr]
    exact hr
  | running =>
    cases hi : s.images with
    | cons img rest =>
      rw [step_loader s hr hi]
      cases img with
      | stream b => trivial
      | unavailable => exact ⟨hr, congrArg List.head? hi⟩
    | nil =>
      cases hw : s.wait with
      | some w =>
        rw [step_waiting s hr hi hw]
        trivial
      | none =>
        rw [step_eq_exec ⟨hr, hi, hw⟩]
        obtain ⟨t, ht⟩ | ⟨hstring, hzero, hfault⟩ := exec_ends (decode s.fetch.1) s.fetch.2
        · rw [ht]
          trivial
        · rw [hfault]
          exact ⟨⟨hr, hi, hw⟩, hstring, hzero⟩

theorem step_unavailable {s : State} (hr : s.run = .running) (hi : s.images.head? = some .unavailable) :
    step s = .fault .imageLoadError := by
  obtain ⟨rest, hrest⟩ := List.head?_eq_some_iff.mp hi
  rw [step_loader s hr hrest]
  rfl

theorem step_string_never_ends {s : State} (h : s.Ready)
    (hi : decode s.fetch.1 = .trap 0x22 ∨ decode s.fetch.1 = .trap 0x24) (hz : ∀ a, s.fetch.2.memCell a ≠ 0x0000) :
    step s = .fault .stringNeverEnds := by
  obtain ⟨hputs, hputsp⟩ := (stringTrapsEndUnlessNoZeroCell s.fetch.2).2 hz
  rw [step_eq_exec h]
  rcases hi with hi | hi <;> rw [hi]
  · exact hputs
  · exact hputsp

/-- Settles O15: what each answer says of the state, and that the state alone decides it. -/
theorem stepFaultsOnlyWhereNamed : Obligations.StepFaultsOnlyWhereNamed := by
  intro s
  have explained {o : Host.Outcome State Fault Refusal} (h : step s = o) : s.Explains o := h ▸ step_explained s
  exact ⟨fun r h => explained h, fun c => ⟨explained, step_aborted s⟩,
    ⟨explained, fun ⟨hr, hi⟩ => step_unavailable hr hi⟩,
    ⟨explained, fun ⟨h, hi, hz⟩ => step_string_never_ends h hi hz⟩⟩

/-! ### The run state -/

section
variable {s t : State}

/-- RTI, RES and HALT set the run state, and every other instruction keeps it (R27). -/
theorem exec_run {i : Instr} (h : exec i s = .next t) :
    (i = .rti ∧ t.run = .aborted .rti) ∨ (i = .res ∧ t.run = .aborted .res) ∨ (i = .trap 0x25 ∧ t.run = .halted) ∨
    (i ≠ .rti ∧ i ≠ .res ∧ i ≠ .trap 0x25 ∧ t.run = s.run) := by
  cases i with
  | rti =>
    obtain rfl := Host.Outcome.next.inj h
    exact .inl ⟨rfl, rfl⟩
  | res =>
    obtain rfl := Host.Outcome.next.inj h
    exact .inr (.inl ⟨rfl, rfl⟩)
  | trap v =>
    by_cases hv : v = 0x25
    · subst hv
      exact .inr (.inr (.inl ⟨rfl, (halt_output h).2⟩))
    · exact .inr (.inr (.inr ⟨nofun, nofun, fun e => hv (Instr.trap.inj e), trap_keeps_run hv h⟩))
  | br c off =>
    obtain ⟨t', h', -, -, -, -, -, -, hrun, -⟩ := branchTestsOneFlag c off s
    obtain rfl := Host.Outcome.next.inj (h'.symm.trans h)
    exact .inr (.inr (.inr ⟨nofun, nofun, nofun, hrun⟩))
  | ld | ldr | sti =>
    obtain rfl := Host.Outcome.next.inj h
    exact .inr (.inr (.inr ⟨nofun, nofun, nofun, s.memRead_run _⟩))
  | ldi =>
    obtain rfl := Host.Outcome.next.inj h
    exact .inr (.inr (.inr ⟨nofun, nofun, nofun, (State.memRead_run _ _).trans (s.memRead_run _)⟩))
  | _ =>
    obtain rfl := Host.Outcome.next.inj h
    exact .inr (.inr (.inr ⟨nofun, nofun, nofun, rfl⟩))

/-- A wait tried again keeps run, pc and images, whether a word has come or not (R199). -/
theorem State.receive_frame (s : State) (p : WaitPoint) :
    (s.receive p).run = s.run ∧ (s.receive p).pc = s.pc ∧ (s.receive p).images = s.images := by
  cases hi : s.input with
  | nil =>
    rw [State.receive_nil s p hi]
    exact ⟨rfl, rfl, rfl⟩
  | cons k rest =>
    have hd := s.delivered_receive p hi
    exact ⟨hd.run, hd.pc, hd.images⟩

end

/-- Settles O16: the run state by the instruction; the other steps keep it, and pc. -/
theorem runStateChangesOnlyByHaltAndAbort : Obligations.RunStateChangesOnlyByHaltAndAbort := by
  refine fun s t h => ⟨fun hready => ?_, fun hn => ?_⟩
  · rw [step_eq_exec hready] at h
    obtain ⟨hi, hrun⟩ | ⟨hi, hrun⟩ | ⟨hi, hrun⟩ | ⟨hrti, hres, hhalt, hrun⟩ := exec_run h
    · simp [hi, hrun]
    · simp [hi, hrun]
    · simp [hi, hrun]
    · rw [State.fetch_run, hready.1] at hrun
      exact ⟨iff_of_false (hrun ▸ nofun) hhalt, iff_of_false (hrun ▸ nofun) hrti, iff_of_false (hrun ▸ nofun) hres⟩
  · obtain ⟨-, rfl⟩ | ⟨b, rest, -, -, rfl⟩ | ⟨w, -, -, -, rfl⟩ := step_next_of_not_ready s hn h
    · exact ⟨rfl, rfl⟩
    · exact ⟨rfl, rfl⟩
    · obtain ⟨hrun, hpc, -⟩ := s.receive_frame w
      exact ⟨hrun, hpc⟩

/-! ### The console input -/

/-- The words still to come in `t` are those of `s`, or those without the oldest (R12). -/
def ConsumesAtMostOne (s t : State) : Prop :=
  t.pendingWords = s.pendingWords ∨ ∃ c, s.pendingWords = c :: t.pendingWords

section
variable {s t : State}

theorem consumesAtMostOne_of_input_eq (h : t.input = s.input) : ConsumesAtMostOne s t :=
  .inl (congrArg (List.map InputWord.word) h)

theorem consumesAtMostOne_of_input_cons {k : InputWord} (h : s.input = k :: t.input) : ConsumesAtMostOne s t :=
  .inr ⟨k.word, congrArg (List.map InputWord.word) h⟩

/-- A poll consumes the key it finds and nothing else. -/
theorem consumesAtMostOne_of_polledAt {a : Word} (h : PolledAt a s t) : ConsumesAtMostOne s t := by
  obtain ⟨helse, hkbsr⟩ := h
  by_cases ha : a = 0xFE00
  · obtain ⟨hkey, hnone⟩ := hkbsr ha
    obtain ⟨c, rest, hk⟩ | hn := keyReady_or_not s
    · obtain ⟨hin, -⟩ := hkey c rest hk
      exact consumesAtMostOne_of_input_cons (hk.trans (congrArg _ hin.symm))
    · exact .inl (hnone hn).1
  · exact consumesAtMostOne_of_input_eq (helse ha).2

theorem State.consumesAtMostOne_receive (s : State) (p : WaitPoint) : ConsumesAtMostOne s (s.receive p) := by
  cases hi : s.input with
  | nil =>
    rw [State.receive_nil s p hi]
    exact consumesAtMostOne_of_input_eq rfl
  | cons k rest => exact consumesAtMostOne_of_input_cons (hi.trans (congrArg _ (s.delivered_receive p hi).input.symm))

theorem consumesAtMostOne_exec {i : Instr} (h : exec i s = .next t) : ConsumesAtMostOne s t := by
  by_cases hi : ∃ v, i = .trap v
  · obtain ⟨v, rfl⟩ := hi
    obtain ⟨o, rfl⟩ | ⟨-, o, rfl⟩ | ⟨-, -, o, p, rfl⟩ | ⟨-, k, rest, o, hin, rfl⟩ := trap_next s h
    · exact consumesAtMostOne_of_input_eq rfl
    · exact consumesAtMostOne_of_input_eq rfl
    · exact consumesAtMostOne_of_input_eq rfl
    · exact consumesAtMostOne_of_input_cons hin
  · obtain ⟨a, hin, -⟩ := exec_polls_at_most_once (fun v hv => hi ⟨v, hv⟩) h
    have hread := consumesAtMostOne_of_polledAt (polledAt_memRead a s)
    unfold ConsumesAtMostOne State.pendingWords at hread ⊢
    rwa [hin]

/-- A fetch that polls KBSR runs an instruction that reads nothing more, so that a step polls once at most. -/
theorem consumesAtMostOne_step_ready (hr : s.Ready) (h : step s = .next t) : ConsumesAtMostOne s t := by
  by_cases hpc : s.pc = 0xFE00
  · obtain ⟨hkey, hnone⟩ := fetchFromKeyboardStatus s hr hpc
    obtain ⟨u, hu, hpolled⟩ : ∃ u, step s = .next u ∧ PolledAt 0xFE00 s u := by
      obtain ⟨c, rest, hk⟩ | hn := keyReady_or_not s
      · obtain ⟨u, hu, -, -, -, -, -, hpolled⟩ := hkey c rest hk
        exact ⟨u, hu, hpolled⟩
      · obtain ⟨u, hu, -, -, -, -, -, hpolled⟩ := hnone hn
        exact ⟨u, hu, hpolled⟩
    obtain rfl := Host.Outcome.next.inj (hu.symm.trans h)
    exact consumesAtMostOne_of_polledAt hpolled
  · rw [step_runs_cell hr rfl hpc rfl] at h
    exact consumesAtMostOne_exec (s := s.setPc (s.pc + 1)) h

end

/-- Settles O25: an instruction, a wait and the fetch of the status cell each take one word at most, and no step is two of
them. -/
theorem inputIsConsumedInOrder : Obligations.InputIsConsumedInOrder := by
  intro s t h
  by_cases hr : s.Ready
  · exact consumesAtMostOne_step_ready hr h
  · obtain ⟨-, rfl⟩ | ⟨b, rest, -, -, rfl⟩ | ⟨w, -, -, -, rfl⟩ := step_next_of_not_ready s hr h
    · exact consumesAtMostOne_of_input_eq rfl
    · exact consumesAtMostOne_of_input_eq rfl
    · exact s.consumesAtMostOne_receive w

/-! ### The invariant -/

section
variable {s t : State}

/-- Only TRAP can begin or end a wait (R199), and no instruction gives the loader an image back (R182). -/
theorem exec_keeps_wait_images {i : Instr} (hi : ∀ v, i ≠ .trap v) (h : exec i s = .next t) :
    t.wait = s.wait ∧ t.images = s.images := by
  cases i with
  | trap v => exact absurd rfl (hi v)
  | br c off =>
    obtain ⟨t', h', -, -, -, -, -, -, -, hkeep⟩ := branchTestsOneFlag c off s
    obtain rfl := Host.Outcome.next.inj (h'.symm.trans h)
    exact hkeep
  | ld | ldr | sti =>
    obtain rfl := Host.Outcome.next.inj h
    exact ⟨s.memRead_wait _, s.memRead_images _⟩
  | ldi =>
    obtain rfl := Host.Outcome.next.inj h
    exact ⟨(State.memRead_wait _ _).trans (s.memRead_wait _), (State.memRead_images _ _).trans (s.memRead_images _)⟩
  | _ =>
    obtain rfl := Host.Outcome.next.inj h
    exact ⟨rfl, rfl⟩

theorem exec_keeps_images {i : Instr} (h : exec i s = .next t) : t.images = s.images := by
  by_cases hi : ∃ v, i = .trap v
  · obtain ⟨v, rfl⟩ := hi
    obtain ⟨o, rfl⟩ | ⟨-, o, rfl⟩ | ⟨-, -, o, p, rfl⟩ | ⟨-, k, rest, o, -, rfl⟩ := trap_next s h <;> rfl
  · exact (exec_keeps_wait_images (fun v hv => hi ⟨v, hv⟩) h).2

/-- An instruction that leaves the core in a wait has linked and left it RUNNING (R199). -/
theorem exec_begins_wait {i : Instr} (hs : s.wait = none) (h : exec i s = .next t) (hw : t.wait ≠ none) :
    t.run = s.run ∧ t.x .r7 = t.pc := by
  by_cases hi : ∃ v, i = .trap v
  · obtain ⟨v, rfl⟩ := hi
    obtain ⟨-, hpc, hr7, -⟩ := trap_frame h
    refine ⟨trap_keeps_run ?_ h, hr7.trans hpc.symm⟩
    rintro rfl
    obtain ⟨-, -, -, hwait⟩ := trap_without_input (by decide) (by decide) h
    exact hw (hwait.trans hs)
  · obtain ⟨hwait, -⟩ := exec_keeps_wait_images (fun v hv => hi ⟨v, hv⟩) h
    exact absurd (hwait.trans hs) hw

/-- An instruction that halts a running core has linked (R104, R157). -/
theorem exec_halts {i : Instr} (hs : s.run = .running) (h : exec i s = .next t) (ht : t.run = .halted) :
    t.x .r7 = t.pc := by
  obtain ⟨-, hrun⟩ | ⟨-, hrun⟩ | ⟨rfl, -⟩ | ⟨-, -, -, hrun⟩ := exec_run h
  · cases hrun.symm.trans ht
  · cases hrun.symm.trans ht
  · obtain ⟨-, hpc, hr7, -⟩ := trap_frame h
    exact hr7.trans hpc.symm
  · cases (hrun.trans hs).symm.trans ht

theorem inv_of_exec {i : Instr} (hs : s.Ready) (hwf : s.mem.wf) (h : exec i s = .next t) : t.Inv := by
  obtain ⟨hrun, himages, hwait⟩ := hs
  have ht : t.images = [] := (exec_keeps_images h).trans himages
  refine ⟨exec_keeps_wf hwf h, fun hw => ?_, exec_halts hrun h, fun _ => ht⟩
  obtain ⟨hkept, hr7⟩ := exec_begins_wait hwait h hw
  exact ⟨hkept.trans hrun, ht, hr7⟩

theorem inv_of_step_ready (hr : s.Ready) (hs : s.Inv) (h : step s = .next t) : t.Inv := by
  rw [step_eq_exec hr] at h
  obtain ⟨hrun, himages, hwait⟩ := hr
  exact inv_of_exec ⟨s.fetch_run.trans hrun, s.fetch_images.trans himages, s.fetch_wait.trans hwait⟩
    (s.memRead_wf hs.memWf) h

/-- The loader leaves the core RUNNING and not in a wait: with images left it was in none. -/
theorem inv_of_load {b : List Byte} {rest : List Image} (hs : s.Inv) (hr : s.run = .running)
    (hi : s.images = .stream b :: rest) : ({ s with mem := s.mem.loadImage b, images := rest } : State).Inv := by
  refine ⟨Memory.wf_loadImage hs.memWf b, fun hw => ?_, fun hh => ?_, fun hn => absurd hr hn⟩
  · obtain ⟨-, himages, -⟩ := hs.waiting hw
    cases himages.symm.trans hi
  · cases hr.symm.trans hh

theorem inv_of_receive {p : WaitPoint} (hs : s.Inv) (hr : s.run = .running) (hw : s.wait = some p) : (s.receive p).Inv := by
  cases hi : s.input with
  | nil =>
    have hsame : s.receive p = s := by rw [State.receive_nil s p hi, State.setWait, ← hw]
    rwa [hsame]
  | cons k rest =>
    have hd := s.delivered_receive p hi
    have hrun : (s.receive p).run = .running := hd.run.trans hr
    refine ⟨?_, fun h => absurd hd.wait h, fun h => ?_, fun h => absurd hrun h⟩
    · rw [State.receive_cons s p hi]
      cases p <;> exact hs.memWf
    · cases hrun.symm.trans h

end

/-- Settles O10: by what the step is, an instruction, an image loaded, a wait tried again or nothing. -/
theorem everyStepKeepsInvariant : Obligations.EveryStepKeepsInvariant := by
  intro s t hs h
  by_cases hr : s.Ready
  · exact inv_of_step_ready hr hs h
  · obtain ⟨-, rfl⟩ | ⟨b, rest, hrun, hi, rfl⟩ | ⟨w, hrun, -, hw, rfl⟩ := step_next_of_not_ready s hr h
    · exact hs
    · exact inv_of_load hs hrun hi
    · exact inv_of_receive hs hrun hw

end Sys2Proof.Machine
end

section
/-! PROOFS. Where the loader puts an image, what its step leaves unchanged, and the boot (47_image_loader.md R176 to R183). -/

namespace Sys2Proof.Machine

/-! ### One image -/

theorem imageOrigin_cons (hi lo : Byte) (rest : List Byte) : imageOrigin (hi :: lo :: rest) = (wordOfBytes hi lo).toNat :=
  (wordOfBytes_toNat hi lo).symm

/-- The words an image loads are as many as the spec's K (R177, R179). -/
theorem length_take_wordsOfBytes (hi lo : Byte) (rest : List Byte) :
    ((wordsOfBytes rest).take (Config.memCells - (wordOfBytes hi lo).toNat)).length = imageWords (hi :: lo :: rest) := by
  rw [List.length_take, wordsOfBytes_length, Nat.min_comm, imageWords, imageOrigin_cons]
  rfl

/-- Word k of the stream after the origin is the spec's word(k) (R177). -/
theorem imageWord_cons (hi lo : Byte) (rest : List Byte) (k : Nat) :
    imageWord (hi :: lo :: rest) k = byteAt rest (2 * k) * 256 + byteAt rest (2 * k + 1) := by
  rw [imageWord, Nat.add_comm 2, Nat.add_comm 3]
  rfl

/-- An image with an origin is its words placed from there (R176 to R179). -/
theorem Memory.loadImage_cons (m : Memory) (hi lo : Byte) (rest : List Byte) : m.loadImage (hi :: lo :: rest) =
    m.placeWords (wordOfBytes hi lo) ((wordsOfBytes rest).take (Config.memCells - (wordOfBytes hi lo).toNat)) := rfl

/-- A cell among the image's words takes its word. -/
theorem Memory.get_loadImage_covered (m : Memory) (hi lo : Byte) (rest : List Byte) {a : Word}
    (h : imageOrigin (hi :: lo :: rest) ≤ a.toNat ∧
      a.toNat < imageOrigin (hi :: lo :: rest) + imageWords (hi :: lo :: rest)) :
    ((m.loadImage (hi :: lo :: rest)).get a).toNat =
      imageWord (hi :: lo :: rest) (a.toNat - imageOrigin (hi :: lo :: rest)) := by
  rw [imageOrigin_cons, ← length_take_wordsOfBytes] at h
  have hfit := origin_add_length_take_le (wordOfBytes hi lo) (wordsOfBytes rest)
  rw [imageWord_cons, imageOrigin_cons, Memory.loadImage_cons, Memory.get_placeWords _ m _ a hfit, dif_pos h,
    List.getElem_take, wordsOfBytes_getElem]

/-- Every other cell stays, whatever the bytes are. -/
theorem Memory.get_loadImage_outside (m : Memory) (bytes : List Byte) {a : Word}
    (h : ¬(imageOrigin bytes ≤ a.toNat ∧ a.toNat < imageOrigin bytes + imageWords bytes)) :
    (m.loadImage bytes).get a = m.get a := by
  rcases bytes with _ | ⟨hi, _ | ⟨lo, rest⟩⟩
  · rfl
  · rfl
  · rw [imageOrigin_cons, ← length_take_wordsOfBytes] at h
    have hfit := origin_add_length_take_le (wordOfBytes hi lo) (wordsOfBytes rest)
    rw [Memory.loadImage_cons, Memory.get_placeWords _ m _ a hfit, dif_neg h]

/-- Settles O56: the image's words are placed from its origin, and end at the last cell or below. -/
theorem imageLandsAtItsOrigin : Obligations.ImageLandsAtItsOrigin := by
  refine ⟨fun m bytes a hlen => ⟨fun h => ?_, m.get_loadImage_outside bytes⟩, fun m bytes hlen => ?_⟩
  · obtain ⟨hi, lo, rest, rfl⟩ : ∃ hi lo rest, bytes = hi :: lo :: rest := by
      rcases bytes with _ | ⟨hi, _ | ⟨lo, rest⟩⟩
      · simp at hlen
      · simp at hlen
      · exact ⟨hi, lo, rest, rfl⟩
    exact m.get_loadImage_covered hi lo rest h
  · rcases bytes with _ | ⟨hi, _ | ⟨lo, rest⟩⟩
    · rfl
    · rfl
    · simp at hlen

/-! ### The loader's step -/

/-- Settles O58: the step is `loadNext`, and no instruction brings an image back. -/
theorem loaderWritesNothingButItsCells : Obligations.LoaderWritesNothingButItsCells := by
  refine ⟨fun s bytes rest hr hi => ⟨_, step_loader s hr hi, rfl, rfl, fun _ _ => rfl, rfl, rfl, rfl, rfl, ⟨rfl, rfl⟩,
    fun a ha => ?_⟩, fun s t hi h => ?_⟩
  · exact s.mem.get_loadImage_outside bytes (by omega)
  · by_cases hr : s.Ready
    · rw [step_eq_exec hr] at h
      rw [exec_keeps_images h, State.fetch_images, hi]
    · obtain ⟨-, rfl⟩ | ⟨b, rest, -, hi', -⟩ | ⟨w, -, -, -, rfl⟩ := step_next_of_not_ready s hr h
      · exact hi
      · cases hi.symm.trans hi'
      · obtain ⟨-, -, himages⟩ := s.receive_frame w
        rw [himages, hi]

/-! ### The boot -/

theorem core_run_succ {s t : State} (h : step s = .next t) (k : Nat) :
    Host.Core.run Sys2Proof.core (k + 1) s = Host.Core.run Sys2Proof.core k t := by
  have hstep : Sys2Proof.core.step s = .next t := h
  simp only [Host.Core.run, hstep]

/-- A running machine whose images begin with n streams loads them, in order, in its next n steps (R181). -/
theorem core_run_loads (streams : List (List Byte)) (more : List Image) (k : Nat) (s : State) (hr : s.run = .running)
    (hi : s.images = streams.map .stream ++ more) :
    Host.Core.run Sys2Proof.core (streams.length + k) s =
      Host.Core.run Sys2Proof.core k { s with mem := streams.foldl Memory.loadImage s.mem, images := more } := by
  induction streams generalizing s with
  | nil =>
    rw [List.map_nil, List.nil_append] at hi
    simp [← hi]
  | cons bytes streams ih =>
    rw [List.length_cons, Nat.add_right_comm, core_run_succ (step_loader s hr hi)]
    exact ih _ hr rfl

/-- Settles O59: the streams are loaded one by one; then the core is about to fetch, or the next image stops the run. -/
theorem bootLoadsEveryImageFirst : Obligations.BootLoadsEveryImageFirst := by
  refine ⟨fun streams => ?_, fun streams more => ?_⟩
  · exact ⟨_, core_run_loads streams [] 0 (State.boot (streams.map .stream)) rfl (List.append_nil _).symm,
      ⟨rfl, rfl, rfl⟩, rfl, resetLeavesStatedValues.1, rfl, rfl⟩
  · rw [core_run_loads streams (.unavailable :: more) 1 _ rfl rfl]
    rfl

end Sys2Proof.Machine
end
